-- ==== Sys2Proof/Config.lean ====
section
/-! DEFINITION. Config.lean: the sizes and constants that rule R2 fixes ("table sizes, mixing functions, and warm-up
count are fixed by this design") and the widths of rule R3. The block has no free value: rule R176 says that nothing in
it is chosen by an implementation. -/

namespace Sys2Proof.Config

/-- R2 `P_BASE`: `P` is `W[512 .. 1536)`. -/
def P_BASE : Nat := 512

/-- R2 `Q_BASE`: `Q` is `W[1536 .. 2560)`. -/
def Q_BASE : Nat := 1536

/-- R2 `SCRATCH_LEN`, R102: the recurrence runs over `i` in `16 .. 2560`. -/
@[irreducible] def SCRATCH_LEN : Nat := 2560

/-- R102: the first word of `W` that the recurrence computes. -/
def W_FIRST : Nat := 16

/-- R2 `WARMUP`: `NextWord` steps run and discarded by `TableInit`. -/
@[irreducible] def WARMUP : Nat := 4096

/-- R2 `F1_ROT_A`. -/
def F1_ROT_A : Nat := 7

/-- R2 `F1_ROT_B`. -/
def F1_ROT_B : Nat := 18

/-- R2 `F1_SHR`. -/
def F1_SHR : Nat := 3

/-- R2 `F2_ROT_A`. -/
def F2_ROT_A : Nat := 17

/-- R2 `F2_ROT_B`. -/
def F2_ROT_B : Nat := 19

/-- R2 `F2_SHR`. -/
def F2_SHR : Nat := 10

/-- R2 `G_ROT_X`. -/
def G_ROT_X : Nat := 10

/-- R2 `G_ROT_Y`. -/
def G_ROT_Y : Nat := 23

/-- R3, R40: `BUF` has the addresses `0` to `2^32 − 1`; a range may end at `2^32` and not past it. -/
def BUF_SIZE : Nat := 4294967296

/-- R3: `ADDR_W = 32`, so an `addr` operand is below this. -/
abbrev ADDR_LIMIT : Nat := 4294967296

/-- R3: `LEN_W = 32`, so a `len` operand is below this. -/
abbrev LEN_LIMIT : Nat := 4294967296

/-- R3: `OFFSET_W = 64`, so an `offset` operand is below this. -/
abbrev OFFSET_LIMIT : Nat := 18446744073709551616

/-- The number of bytes in a packet of format `K` (R52). -/
abbrev LEN_K : Nat := 65

/-- The number of bytes in a packet of format `KO` (R52). -/
abbrev LEN_KO : Nat := 73

/-- The number of bytes in a packet of format `Z` (R52). -/
abbrev LEN_Z : Nat := 1

/-- The number of bytes in a packet of format `AL` (R52). -/
abbrev LEN_AL : Nat := 9

end Sys2Proof.Config
end

