-- ==== Sys2Proof/Word.lean ====
section
/-! DEFINITION. Word.lean: bytes, words and arrays of a fixed length (rules R2, R5, R8, R10, R12, R18). Every quantity of
the block is unsigned. -/

namespace Sys2Proof

/-- A byte is 8 bits (R5). -/
abbrev Byte := BitVec 8

/-- A table word or a keystream word: 32 bits, unsigned (R2 `WORD_W`). -/
abbrev Word := BitVec 32

/-- `n` elements of type `α`, the shape of `P`, `Q`, `W`, `pendingBytes`, a key and an IV: a list with its length. -/
structure Arr (α : Type) (n : Nat) where
  toList : List α
  length_eq : toList.length = n
deriving DecidableEq, Repr

/-- Element `i`. The index type keeps every access in bounds ("tables never indexed out of bounds", R10, R32). -/
def Arr.get {α : Type} {n : Nat} (a : Arr α n) (i : Fin n) : α :=
  a.toList[i.val]'(by rw [a.length_eq]; exact i.isLt)

/-- The array with element `i` replaced. -/
def Arr.set {α : Type} {n : Nat} (a : Arr α n) (i : Fin n) (v : α) : Arr α n :=
  ⟨a.toList.set i.val v, by rw [List.length_set]; exact a.length_eq⟩

/-- All elements equal. -/
def Arr.fill {α : Type} (n : Nat) (v : α) : Arr α n :=
  ⟨List.replicate n v, List.length_replicate⟩

/-- `f k, f (k+1), ...`, `n` elements. -/
def listFrom {α : Type} (f : Nat → α) : Nat → Nat → List α
  | _, 0 => []
  | k, n + 1 => f k :: listFrom f (k + 1) n

theorem length_listFrom {α : Type} (f : Nat → α) (k n : Nat) : (listFrom f k n).length = n := by
  induction n generalizing k with
  | zero => rfl
  | succ n ih => rw [listFrom, List.length_cons, ih]

/-- The array whose element `i` is `f i`. -/
def Arr.build {α : Type} (n : Nat) (f : Nat → α) : Arr α n :=
  ⟨listFrom f 0 n, length_listFrom f 0 n⟩

/-- One of the cipher tables `P` and `Q`: 1024 words (R2 `TABLE_LEN`, R10). -/
abbrev Table := Arr Word 1024

/-- The scratch sequence `W`: 2560 words (R2 `SCRATCH_LEN`, R18). -/
abbrev Scratch := Arr Word 2560

/-- A key or an IV: 32 bytes, not a number (R2 `KEY_BYTES`, `IV_BYTES`, R57). -/
abbrev Key := Arr Byte 32

/-- The carry buffer: 3 bytes at positions 0, 1, 2 (R2 `PEND_CAP`, R12). -/
abbrev Carry := Arr Byte 3

/-- A packet: the finite string of bytes that the port delivers whole, with its length (R50). -/
abbrev Packet := List Byte

/-- The response codes (R66). -/
inductive Code where
  /-- `0x00`: the command was carried out as its rule says. -/
  | OK
  /-- `0x01`: the opcode byte selects no command (R60, R188). -/
  | ERR_ILLEGAL_OP
  /-- `0x02`: empty packet, or the length does not fit the opcode (R61, R189). -/
  | ERR_FORMAT
  /-- `0x03`: `NEXTW` or `APPLY` with `ST = EMPTY` (R190). -/
  | ERR_NOT_INIT
  /-- `0x04`: `APPLY` with `addr + L > 2^32` (R191). -/
  | ERR_RANGE
  /-- `0x7f`: the source's one assertion; no rule raises it (R192). -/
  | ERR_INVARIANT
deriving DecidableEq, Repr

end Sys2Proof
end

