-- ==== Sys2Proof/Syntax.lean ====
section
/-! DEFINITION. Syntax.lean: the block's five host commands, one constructor per row of spec/opcode_table.json (rule R58).
`key` and `iv` are byte strings of 32 bytes by type (R57); `addr`, `len` and `offset` are numbers whose widths (R3) are
checked in WellFormed.lean. -/

namespace Sys2Proof

/-- The commands of rule R58. -/
inductive Instr where
  /-- `INIT key iv` (R100). -/
  | init (key iv : Key)
  /-- `INITAT key iv offset` (R150). -/
  | initAt (key iv : Key) (offset : Nat)
  /-- `NEXTW` (R121). -/
  | nextw
  /-- `APPLY addr len` (R130). -/
  | apply (addr len : Nat)
  /-- `RELEASE` (R160). -/
  | release
deriving DecidableEq, Repr

/-! The aliases of rule R69: each expands to exactly one command with the same operands. -/

/-- `NEW key iv` (R69). -/
abbrev Alias.new (key iv : Key) : Instr := .init key iv

/-- `INITIALIZE key iv` (R69). -/
abbrev Alias.initialise (key iv : Key) : Instr := .init key iv

/-- `NEWATOFFSET key iv offset` (R69). -/
abbrev Alias.newAtOffset (key iv : Key) (offset : Nat) : Instr := .initAt key iv offset

/-- `INITIALIZEATOFFSET key iv offset` (R69). -/
abbrev Alias.initialiseAtOffset (key iv : Key) (offset : Nat) : Instr := .initAt key iv offset

/-- `APPLYSTREAM addr len` (R69). -/
abbrev Alias.applyStream (addr len : Nat) : Instr := .apply addr len

/-- `ENCRYPT addr len` (R69). -/
abbrev Alias.encrypt (addr len : Nat) : Instr := .apply addr len

/-- `DECRYPT addr len` (R69): the same operation as `ENCRYPT`. -/
abbrev Alias.decrypt (addr len : Nat) : Instr := .apply addr len

/-- `NEXTWORD` (R69). -/
abbrev Alias.nextWord : Instr := .nextw

/-- `CLOSE` (R69). -/
abbrev Alias.close : Instr := .release

/-- `DESTROY` (R69). -/
abbrev Alias.destroy : Instr := .release

end Sys2Proof
end

