-- ==== Sys2Proof/WellFormed.lean ====
section
/-! DEFINITION. WellFormed.lean: which commands a packet can carry. `key` and `iv` are 32 bytes by type; the numbers must
fit the widths of rule R3. Every value of every operand within its width is legal (R57, R60, R100, R150). -/

namespace Sys2Proof

/-- The command's numbers fit their fields (R3): `offset` in 64 bits, `addr` and `len` in 32 bits each. -/
def WellFormed : Instr → Bool
  | .init _ _ => true
  | .initAt _ _ offset => decide (offset < Config.OFFSET_LIMIT)
  | .nextw => true
  | .apply addr len => decide (addr < Config.ADDR_LIMIT) && decide (len < Config.LEN_LIMIT)
  | .release => true

end Sys2Proof
end

