-- ==== Sys2Proof/Decode.lean ====
section
/-! DEFINITION. Decode.lean: packets to commands (rule R59, total on byte strings, reads no state) and back (R52). -/

namespace Sys2Proof

/-- The number a little-endian byte string stands for: the byte at the lowest offset is the least significant (R56). -/
def leNat : List Byte → Nat
  | [] => 0
  | b :: bs => b.toNat + 256 * leNat bs

/-- The low `n` bytes of a number, least significant first (R56). -/
def leBytes : Nat → Nat → List Byte
  | 0, _ => []
  | n + 1, v => BitVec.ofNat 8 v :: leBytes n (v / 256)

/-- The `n` bytes of packet `b` from offset `k` on, as an array (R52, R57). -/
def packetBytes (b : Packet) (k n : Nat) (h : k + n ≤ b.length) : Arr Byte n :=
  ⟨(b.drop k).take n, by rw [List.length_take, List.length_drop]; omega⟩

/-- Format `K`: `key[t] = b[1+t]`, `iv[t] = b[33+t]` (R52, R59). -/
def decodeInit (b : Packet) : Except Code Instr :=
  if h : b.length = Config.LEN_K then
    .ok (.init (packetBytes b 1 32 (by simp only [Config.LEN_K] at h; omega))
      (packetBytes b 33 32 (by simp only [Config.LEN_K] at h; omega)))
  else .error .ERR_FORMAT

/-- Format `KO`: key and IV as in `K`, `offset = le64(b[65 .. 73])` (R52, R59). -/
def decodeInitAt (b : Packet) : Except Code Instr :=
  if h : b.length = Config.LEN_KO then
    .ok (.initAt (packetBytes b 1 32 (by simp only [Config.LEN_KO] at h; omega))
      (packetBytes b 33 32 (by simp only [Config.LEN_KO] at h; omega)) (leNat (b.drop 65)))
  else .error .ERR_FORMAT

/-- Format `Z`, opcode `0x03` (R52, R59). -/
def decodeNextw (b : Packet) : Except Code Instr :=
  if b.length = Config.LEN_Z then .ok .nextw else .error .ERR_FORMAT

/-- Format `AL`: `addr = le32(b[1 .. 5])`, `L = le32(b[5 .. 9])` (R52, R59). -/
def decodeApply (b : Packet) : Except Code Instr :=
  if b.length = Config.LEN_AL then
    .ok (.apply (leNat ((b.drop 1).take 4)) (leNat (b.drop 5)))
  else .error .ERR_FORMAT

/-- Format `Z`, opcode `0x05` (R52, R59). -/
def decodeRelease (b : Packet) : Except Code Instr :=
  if b.length = Config.LEN_Z then .ok .release else .error .ERR_FORMAT

/-- R59. The opcode `b[0]` alone selects the command (R53); the length is then checked against the one the opcode
demands; an opcode of no command is illegal whatever the length (R60). -/
def decode (b : Packet) : Except Code Instr :=
  match b with
  | [] => .error .ERR_FORMAT
  | op :: _ =>
    match op.toNat with
    | 1 => decodeInit b
    | 2 => decodeInitAt b
    | 3 => decodeNextw b
    | 4 => decodeApply b
    | 5 => decodeRelease b
    | _ => .error .ERR_ILLEGAL_OP

/-- The packet of a command (R52, R59 "Encoding"). -/
def encode : Instr → Packet
  | .init key iv => 0x01#8 :: (key.toList ++ iv.toList)
  | .initAt key iv offset => 0x02#8 :: (key.toList ++ iv.toList ++ leBytes 8 offset)
  | .nextw => [0x03#8]
  | .apply addr len => 0x04#8 :: (leBytes 4 addr ++ leBytes 4 len)
  | .release => [0x05#8]

/-- The exact packet length that an opcode demands (R52, R63); 1 for an opcode of no command. -/
def formatLength (op : Nat) : Nat :=
  match op with
  | 1 => Config.LEN_K
  | 2 => Config.LEN_KO
  | 4 => Config.LEN_AL
  | _ => Config.LEN_Z

/-- The packet that an opcode-table word stands for: bit 0 of `w` is the least significant bit of the first byte (R53),
and the packet has the length its opcode demands, its bytes above `nbits` zero (or all of the `nbits`, where they are
more). -/
def tablePacket (nbits w : Nat) : Packet :=
  let v := w % 2 ^ nbits
  leBytes (max ((nbits + 7) / 8) (formatLength (v % 256))) v

/-- The command the decoder reads from an opcode-table word. -/
def decodeTableWord (nbits w : Nat) : Option Instr :=
  match decode (tablePacket nbits w) with
  | .ok i => some i
  | .error _ => none

end Sys2Proof
end

