-- ==== Sys2Proof/Machine/State.lean ====
section
/-! DEFINITION. Machine/State.lean: everything the spec gives the machine (10_state.md section 1, rule R27) as plain data,
the state after reset (R25, R215), and why a step can stop. The fields `platform`, `inputs` and `response` are the
model's own (INVENTORY.md, State). -/

namespace Sys2Proof.Machine

/-- The lifecycle flag's two values (R17). -/
inductive Status where
  /-- 0: no session; `NEXTW` and `APPLY` are refused. -/
  | EMPTY
  /-- 1: a session is open. -/
  | READY
deriving DecidableEq, Repr

/-- `BUF`, the external byte memory (R30, R31), as (address, byte) pairs in the canonical form `Memory.wf`. -/
abbrev Memory := List Host.Cell

/-- What stands at an address that is not ordinary memory. -/
inductive RegionKind where
  /-- No memory behind the address (R48, U2). -/
  | hole
  /-- A device: reads or writes have effects beyond storing (R41, U3). -/
  | device
deriving DecidableEq, Repr

/-- A stretch of the address space that is not ordinary memory; the platform fixes these and the block does not
(R40). DESIGN CHOICE, log entry 6. -/
structure Region where
  base : Nat
  size : Nat
  kind : RegionKind
deriving DecidableEq, Repr

/-- A response: one code byte and zero or four data bytes (R66, R67). -/
structure Response where
  code : Code
  data : List Byte
deriving DecidableEq, Repr

/-- One move of the host (R4, R229). A packet carries its bytes by value (R50). DESIGN CHOICE, log entry 1. -/
inductive HostMove where
  /-- Present a packet; the block accepts it, runs the command and responds (R50, R51). -/
  | packet (b : Packet)
  /-- Raise reset while the block is idle (R215, R216). -/
  | reset
  /-- Present packet `b` and raise reset while its command runs, when the command had done `k0` bytes of its range; a
  packet `waiting` at the port is dropped (R218). Log entry 8. -/
  | resetDuring (b : Packet) (waiting : Option Packet) (k0 : Nat)
  /-- Store a byte to `BUF` between commands (R4, R42, R43). Log entry 9. -/
  | bufWrite (addr : BitVec 32) (v : Byte)
deriving DecidableEq, Repr

/-- The machine's state. The first eight fields are the spec's (R10 to R13, R17, R18, R27, R31). -/
@[ext]
structure State where
  /-- R10. -/
  P : Table
  /-- R10. -/
  Q : Table
  /-- R18; zero at every command boundary. -/
  W : Scratch
  /-- R11: bit 10 says which table is active, bits 9:0 are the position. -/
  index : BitVec 11
  /-- R12: right-anchored. -/
  pendingBytes : Carry
  /-- R13. -/
  pendingCount : BitVec 2
  /-- R17. -/
  ST : Status
  /-- R31. -/
  buf : Memory
  /-- R40, R41, R48: the regions that are not ordinary memory; no step changes them. The model's own field. -/
  platform : List Region
  /-- R4, R51: the host's moves to come, oldest first. The model's own field. -/
  inputs : List HostMove
  /-- R66: the response this step delivered; an output (R21). The model's own field. -/
  response : Option Response
deriving DecidableEq, Repr

/-- Why the machine stops for good. -/
inductive Fault where
  /-- Raised by `APPLY`, an abandoned `APPLY` and a host store for a byte with no memory behind it: the access never
  completes (R48, U2 "stuck"). Safe: the hardware gives no response either. Log entry 7. -/
  | unbacked
deriving DecidableEq, Repr

/-- Why the model gives no meaning. -/
inductive Refusal where
  /-- Raised by exec's arm of an instruction that has no meaning yet; no arm is left. Safe. -/
  | notModelled (mnemonic : String)
  /-- Raised by `APPLY`, an abandoned `APPLY` and a host store for a byte with device behaviour: outside the spec (R41 "a
  model refuses an APPLY whose range is not ordinary memory"). Safe. Log entry 7. -/
  | deviceRange
deriving DecidableEq, Repr

/-- The state right after reset (R25, R215): every element of the block zero, `ST = EMPTY`. Of the model's own fields:
nothing listed in `BUF` (log entry 5), no region that is not ordinary memory (log entry 6), no host move (log entry 2)
and no response (log entry 3). -/
def State.reset : State where
  P := Arr.fill 1024 0
  Q := Arr.fill 1024 0
  W := Arr.fill 2560 0
  index := 0
  pendingBytes := Arr.fill 3 0
  pendingCount := 0
  ST := .EMPTY
  buf := []
  platform := []
  inputs := []
  response := none

end Sys2Proof.Machine
end

