-- ==== Sys2Proof/Machine/Flags.lean ====
section
/-! DEFINITION. Machine/Flags.lean: the block stores no flag and no condition code (rule R21); these are the three
predicates that R21 says are computed from the state when needed. -/

namespace Sys2Proof.Machine

/-- `active_is_P = (index < 1024)`, read by `NextWord` (R11, R21, R115). -/
def activeIsP (s : State) : Bool :=
  decide (s.index.toNat < 1024)

/-- `carry_present = (pendingCount > 0)`, read by the Drain phase (R21, R133). -/
def carryPresent (s : State) : Bool :=
  decide (0 < s.pendingCount.toNat)

/-- `ST = READY`, read by admission (R17, R21, R190). -/
def isReady (s : State) : Bool :=
  decide (s.ST = Status.READY)

end Sys2Proof.Machine
end

