-- ==== Sys2Proof/Machine/Arith.lean ====
section
/-! DEFINITION. Machine/Arith.lean: the arithmetic primitives and the six mixing functions (40_arith.md, rules R80 to
R95). Pure functions; no flag, carry or trap exists (R80). -/

namespace Sys2Proof.Machine

/-- `add32(a, b, ...)`: the sum modulo `2^32` (R80). -/
def add32 (ws : List Word) : Word :=
  BitVec.ofNat 32 ((ws.map BitVec.toNat).sum)

/-- `rotr(x, n)`: rotate right by `n` places within 32 bits, `n` in `1 .. 32` (R81). -/
def rotr (x : Word) (n : Nat) : Word :=
  (x >>> n) ||| (x <<< (32 - n))

/-- `f1` (R87). -/
def f1 (x : Word) : Word :=
  rotr x Config.F1_ROT_A ^^^ rotr x Config.F1_ROT_B ^^^ (x >>> Config.F1_SHR)

/-- `f2` (R88). -/
def f2 (x : Word) : Word :=
  rotr x Config.F2_ROT_A ^^^ rotr x Config.F2_ROT_B ^^^ (x >>> Config.F2_SHR)

/-- A table word; the ten index bits are the reduction `mod 1024` (R7, R10, R86). -/
def readTable (t : Table) (k : BitVec 10) : Word :=
  t.get k.toFin

/-- A table with one word replaced (R7). -/
def writeTable (t : Table) (k : BitVec 10) (v : Word) : Table :=
  t.set k.toFin v

/-- `x mod 1024` of a word: `x[9:0]` (R86). -/
def low10 (x : Word) : BitVec 10 :=
  x.setWidth 10

/-- Byte `t` of a word as a table index: `(x >> 8t) & 0xff` (R83). -/
def byteIndex (t : Nat) (x : Word) : BitVec 10 :=
  (x.extractLsb' (8 * t) 8).setWidth 10

/-- `g_B` with feeder table `B`: `g1` is `g Q` and `g2` is `g P` (R89, R90, R95). -/
def g (B : Table) (x y : Word) : Word :=
  add32 [rotr x Config.G_ROT_X ^^^ rotr y Config.G_ROT_Y, readTable B (low10 (x ^^^ y))]

/-- `h_B` with feeder table `B`: `h1` is `h Q` and `h2` is `h P` (R91, R92, R95). -/
def h (B : Table) (x : Word) : Word :=
  add32 [readTable B (byteIndex 0 x), readTable B (256 + byteIndex 1 x),
    readTable B (512 + byteIndex 2 x), readTable B (768 + byteIndex 3 x)]

/-- `j = i mod 1024` (R116). -/
def posJ (i : BitVec 11) : BitVec 10 := i.setWidth 10

/-- `j3 = (i − 3) mod 1024`: the low ten bits of the 11-bit difference (R86, R116). -/
def posJ3 (i : BitVec 11) : BitVec 10 := (i - 3#11).setWidth 10

/-- `j10 = (i − 10) mod 1024` (R86, R116). -/
def posJ10 (i : BitVec 11) : BitVec 10 := (i - 10#11).setWidth 10

/-- `j12 = (i − 12) mod 1024` (R86, R116). -/
def posJ12 (i : BitVec 11) : BitVec 10 := (i - 12#11).setWidth 10

/-- `j1023 = (i + 1) mod 1024` (R86, R116). -/
def posJ1023 (i : BitVec 11) : BitVec 10 := (i + 1#11).setWidth 10

/-- One half of `NextWord` with active table `A` and feeder `B` at position `i`: the output word and the new active
table. The output is formed from the word just written (R115, R117, R118). -/
def halfStep (A B : Table) (i : BitVec 11) : Word × Table :=
  let A' := writeTable A (posJ i)
    (add32 [readTable A (posJ i), readTable A (posJ10 i),
      g B (readTable A (posJ3 i)) (readTable A (posJ1023 i))])
  (h B (readTable A' (posJ12 i)) ^^^ readTable A' (posJ i), A')

end Sys2Proof.Machine
end

