-- ==== Sys2Proof/Machine/Operands.lean ====
section
/-! DEFINITION. Machine/Operands.lean: how bytes become words and words become bytes (rules R35, R56, R84, R85), and the
bytes of a response (R66, R67, R70). A command's operands reach the block by value, in its packet (R30, R46). -/

namespace Sys2Proof.Machine

/-- `le32(b0, b1, b2, b3)`: `b0` is the byte at the lowest position (R84). -/
def le32 (b0 b1 b2 b3 : Byte) : Word :=
  BitVec.ofNat 32 (b0.toNat + 256 * b1.toNat + 65536 * b2.toNat + 16777216 * b3.toNat)

/-- `byte_t(w)`: byte `t` of a word in little-endian order (R85). -/
def byteOf (t : Nat) (w : Word) : Byte :=
  w.extractLsb' (8 * t) 8

/-- The four bytes of a word in keystream order (R85, R136). -/
def wordBytes (w : Word) : List Byte :=
  [byteOf 0 w, byteOf 1 w, byteOf 2 w, byteOf 3 w]

/-- Word `k` of a key or an IV, packed little-endian (R35 (a), R101); `k` is below 8. -/
def keyWord (key : Key) (k : Nat) : Word :=
  le32 (key.get (Fin.ofNat 32 (4 * k))) (key.get (Fin.ofNat 32 (4 * k + 1)))
    (key.get (Fin.ofNat 32 (4 * k + 2))) (key.get (Fin.ofNat 32 (4 * k + 3)))

/-- The code byte of a response (R66). -/
def codeByte : Code → Byte
  | .OK => 0x00
  | .ERR_ILLEGAL_OP => 0x01
  | .ERR_FORMAT => 0x02
  | .ERR_NOT_INIT => 0x03
  | .ERR_RANGE => 0x04
  | .ERR_INVARIANT => 0x7f

end Sys2Proof.Machine
end

