-- ==== Sys2Proof/Machine/Ops.lean ====
section
/-! DEFINITION. Machine/Ops.lean: the named operations over memory and the block's registers, the response (rule R66) and
the refusal, which is the block's only exception (R185, R186). -/

namespace Sys2Proof.Machine

/-! ## Plain updates

Every update of a state goes through a named operation; Laws/State.lean says for each what every field is after it. -/

/-- `BUF` replaced. -/
def withBuf (m : Memory) (s : State) : State := { s with buf := m }

/-- `pendingCount <- n` (R7). -/
def withCount (n : BitVec 2) (s : State) : State := { s with pendingCount := n }

/-- `index <- 0` (R104, R105). -/
def rewind (s : State) : State := { s with index := 0 }

/-- `ST <- READY` (R17, R106). -/
def setReady (s : State) : State := { s with ST := .READY }

/-- The response at the port (R66). -/
def withResponse (r : Option Response) (s : State) : State := { s with response := r }

/-- The host's moves to come. -/
def withInputs (ms : List HostMove) (s : State) : State := { s with inputs := ms }

/-! ## BUF -/

/-- What an unlisted byte of `BUF` reads as. DESIGN CHOICE, unsafe: the spec gives `BUF` no reset contents. Log entry 5. -/
def Memory.unlisted : Byte := 0x00

/-- The canonical form from address `lo` on: addresses rising and below `2^32`, no entry equal to an unlisted byte. -/
def Memory.wfFrom : Nat → Memory → Bool
  | _, [] => true
  | lo, (a, v) :: m =>
    decide (lo ≤ a) && decide (a < Config.BUF_SIZE) && decide (v ≠ Memory.unlisted) && Memory.wfFrom (a + 1) m

/-- The canonical form of a memory. -/
def Memory.wf (m : Memory) : Bool := Memory.wfFrom 0 m

/-- `MemRead(addr, 1)` (R34). -/
def Memory.read : Memory → Nat → Byte
  | [], _ => Memory.unlisted
  | (b, v) :: m, a => if a = b then v else Memory.read m a

/-- `MemWrite(addr, 1, v)` (R34); keeps the canonical form. -/
def Memory.write : Memory → Nat → Byte → Memory
  | [], a, v => if v = Memory.unlisted then [] else [(a, v)]
  | (b, w) :: m, a, v =>
    if a < b then (if v = Memory.unlisted then (b, w) :: m else (a, v) :: (b, w) :: m)
    else if a = b then (if v = Memory.unlisted then m else (a, v) :: m)
    else (b, w) :: Memory.write m a v

/-- One byte of an `APPLY`: read, XOR with the keystream byte, write back (R38, R130). -/
def xorByteAt (m : Memory) (a : Nat) (k : Byte) : Memory :=
  Memory.write m a (Memory.read m a ^^^ k)

/-- XOR a run of keystream bytes into `BUF` from address `a` up, in ascending order (R39). -/
def xorRun : Memory → Nat → List Byte → Memory
  | m, _, [] => m
  | m, a, k :: ks => xorRun (xorByteAt m a k) (a + 1) ks

/-- Bytes `0 .. n` of the range from `a` on taken from `done`, all other bytes from `m` (R218). -/
def copyPrefix (done : Memory) : Memory → Nat → Nat → Memory
  | m, _, 0 => m
  | m, a, n + 1 => copyPrefix done (Memory.write m a (Memory.read done a)) (a + 1) n

/-! ## Which addresses are ordinary memory -/

/-- Some byte of `[addr, addr + len)` lies in the region. -/
def Region.meets (r : Region) (addr len : Nat) : Bool :=
  decide (max r.base addr < min (r.base + r.size) (addr + len))

/-- Some byte of `[addr, addr + len)` lies in a region of kind `k` (R41, R48). -/
def touches (k : RegionKind) (platform : List Region) (addr len : Nat) : Bool :=
  platform.any fun r => decide (r.kind = k) && r.meets addr len

/-- The range lies wholly in backed, ordinary memory, the host's duty of R222. -/
def ordinaryRange (s : State) (addr len : Nat) : Bool :=
  !touches .device s.platform addr len && !touches .hole s.platform addr len

/-- Go on with `k` if the range is ordinary memory; else stop by name (R41, R48, U2, U3). Log entry 7. -/
def onOrdinary (addr len : Nat) (s : State) (k : Host.Outcome State Fault Refusal) :
    Host.Outcome State Fault Refusal :=
  if touches .device s.platform addr len then .refused .deviceRange
  else if touches .hole s.platform addr len then .fault .unbacked
  else k

/-! ## Responses and the refusal -/

/-- `respond(code, data)` (R7, R66). -/
def respond (code : Code) (data : List Byte) (s : State) : Host.Outcome State Fault Refusal :=
  .next (withResponse (some ⟨code, data⟩) s)

/-- `raise Refuse(code)`, taking the block's only exception: the response carries the code and no data, nothing else
changes, nothing is saved and control goes nowhere (R185, R186). There is no return from it (R195): the block is ready
for the next command. -/
def refuse (code : Code) (s : State) : Host.Outcome State Fault Refusal :=
  respond code [] s

/-- The bytes of a response on the port: the code byte, then the data (R66, R67, R70). -/
def Response.bytes (r : Response) : List Byte :=
  codeByte r.code :: r.data

/-! ## The generator -/

/-- `NextWord()`: the returned word and the new state (R115). One word of the active table and `index` change; `index`
advances by 1 modulo 2048 (R119). -/
def nextWord (s : State) : Word × State :=
  if activeIsP s then
    let r := halfStep s.P s.Q s.index
    (r.1, { s with P := r.2, index := s.index + 1 })
  else
    let r := halfStep s.Q s.P s.index
    (r.1, { s with Q := r.2, index := s.index + 1 })

/-- `n` calls of `NextWord`, the returned words dropped (R105, R151). -/
def skip : Nat → State → State
  | 0, s => s
  | n + 1, s => skip n (nextWord s).2

/-! ## The carry -/

/-- The pending byte at position `p`, `p` in `0 .. 3` (R12). -/
def carryAt (c : Carry) (p : Nat) : Byte := c.get (Fin.ofNat 3 p)

/-- The carry with position `p` zeroed (R134). -/
def clearAt (c : Carry) (p : Nat) : Carry := c.set (Fin.ofNat 3 p) 0

/-- `for t in r .. 4: pendingBytes[t − 1] <- byte_t(w)`, for `1 ≤ r` (R139, R152). -/
def keepTail (r : Nat) (w : Word) (c : Carry) : Carry :=
  ⟨[if r ≤ 1 then byteOf 1 w else carryAt c 0, if r ≤ 2 then byteOf 2 w else carryAt c 1,
    if r ≤ 3 then byteOf 3 w else carryAt c 2], rfl⟩

/-- The carry of a partly used word: its bytes from `r` on, and their count `4 − r` (R139, R152). -/
def storeCarry (r : Nat) (w : Word) (s : State) : State :=
  { s with pendingBytes := keepTail r w s.pendingBytes, pendingCount := BitVec.ofNat 2 (4 - r) }

/-- `pendingBytes <- 00 00 00`, `pendingCount <- 0` (R104, R140). -/
def clearCarry (s : State) : State :=
  { s with pendingBytes := Arr.fill 3 0, pendingCount := 0 }

/-! ## The Table Initializer -/

/-- `W[i]`, `i` in `0 .. 2560` (R7, R32). -/
def readScratch (w : Scratch) (i : Nat) : Word := w.get (Fin.ofNat 2560 i)

/-- `W[i] <- v` (R7). -/
def writeScratch (w : Scratch) (i : Nat) (v : Word) : Scratch := w.set (Fin.ofNat 2560 i) v

/-- The two packing writes of each of the first `n` values of `k`: `W[k]` from the key, `W[8+k]` from the IV (R101). -/
def loadKeyIv (key iv : Key) : Nat → Scratch → Scratch
  | 0, w => w
  | n + 1, w =>
    let w' := loadKeyIv key iv n w
    writeScratch (writeScratch w' n (keyWord key n)) (8 + n) (keyWord iv n)

/-- The word the recurrence gives at position `i`, `16 ≤ i` (R102). -/
def scratchWord (w : Scratch) (i : Nat) : Word :=
  add32 [f2 (readScratch w (i - 2)), readScratch w (i - 7), f1 (readScratch w (i - 15)),
    readScratch w (i - 16), BitVec.ofNat 32 i]

/-- `n` steps of the recurrence from position 16 on, in increasing `i` (R102). -/
def expandScratch : Nat → Scratch → Scratch
  | 0, w => w
  | n + 1, w =>
    let w' := expandScratch n w
    writeScratch w' (Config.W_FIRST + n) (scratchWord w' (Config.W_FIRST + n))

/-- Step 1: the whole of `W` (R101, R102). -/
def buildScratch (key iv : Key) (s : State) : State :=
  { s with W := expandScratch (Config.SCRATCH_LEN - Config.W_FIRST) (loadKeyIv key iv 8 s.W) }

/-- Step 2, first half: `P[t] <- W[512 + t]`, `Q[t] <- W[1536 + t]` (R103). -/
def loadTables (s : State) : State :=
  { s with
    P := Arr.build 1024 fun t => readScratch s.W (Config.P_BASE + t)
    Q := Arr.build 1024 fun t => readScratch s.W (Config.Q_BASE + t) }

/-- Step 2, second half: `W` is overwritten with zero (R103). -/
def wipeScratch (s : State) : State :=
  { s with W := Arr.fill 2560 0 }

/-- Step 3: `index <- 0`, `pendingCount <- 0`, `pendingBytes <- 00 00 00` (R104). -/
def clearPosition (s : State) : State :=
  rewind (clearCarry s)

/-- Step 4: 4096 discarded words, then `index <- 0` (R105). -/
def warmUp (s : State) : State :=
  rewind (skip Config.WARMUP s)

/-- `TableInit(key, iv)`, shared by `INIT` and `INITAT` (R107). -/
def tableInit (key iv : Key) (s : State) : State :=
  warmUp (clearPosition (wipeScratch (loadTables (buildScratch key iv s))))

/-! ## Zero on release and reset -/

/-- Every element of the block zero and `ST = EMPTY`; `BUF` is not touched (R160, R215). -/
def wipeBlock (s : State) : State :=
  { s with
    P := Arr.fill 1024 0
    Q := Arr.fill 1024 0
    W := Arr.fill 2560 0
    pendingBytes := Arr.fill 3 0
    pendingCount := 0
    index := 0
    ST := .EMPTY }

end Sys2Proof.Machine
end

