-- ==== Sys2Proof/Machine/Apply.lean ====
section
/-! DEFINITION. Machine/Apply.lean: `APPLY`, the buffered stream applicator (43_apply.md, rules R130 to R140). In the
phases `o` counts the bytes of the buffer done so far, so the byte at hand is at address `addr + o`. -/

namespace Sys2Proof.Machine

/-- One drained byte: buffer byte `o` is XORed with the pending byte at position `p`, which is zeroed (R133, R134). -/
def drainByte (a p : Nat) (s : State) : State :=
  { s with
    buf := xorByteAt s.buf a (carryAt s.pendingBytes p)
    pendingBytes := clearAt s.pendingBytes p }

/-- Drain: `n` more bytes, the next one from carry position `3 − c + o` (R133, R134). -/
def drain (addr c : Nat) : Nat → Nat → State → State
  | 0, _, s => s
  | n + 1, o, s => drain addr c n (o + 1) (drainByte (addr + o) (3 - c + o) s)

/-- One word drawn and its first `r` bytes XORed into `BUF` from address `a` up (R136, R138). -/
def xorWord (a r : Nat) (s : State) : State :=
  let x := nextWord s
  withBuf (xorRun x.2.buf a ((wordBytes x.1).take r)) x.2

/-- Bulk: `m` groups of four bytes, one word each (R136). -/
def bulk (addr : Nat) : Nat → Nat → State → State
  | 0, _, s => s
  | m + 1, o, s => bulk addr m (o + 4) (xorWord (addr + o) 4 s)

/-- Tail: the last `r` bytes from one more word, whose other bytes become the carry (R138, R139); with `r = 0` no word is
drawn and the carry is cleared (R140). -/
def applyTail (addr r o : Nat) (s : State) : State :=
  if r = 0 then clearCarry s
  else storeCarry r (nextWord s).1 (xorWord (addr + o) r s)

/-- The three phases of an admitted `APPLY` (R130, R133 to R140). -/
def applyStream (addr len : Nat) (s : State) : State :=
  let c := s.pendingCount.toNat
  let s1 := if carryPresent s then drain addr c (min c len) 0 s else s
  if len ≤ c then withCount (BitVec.ofNat 2 (c - len)) s1
  else
    let rest := len - c
    applyTail addr (rest % 4) (c + 4 * (rest / 4))
      (bulk addr (rest / 4) c (withCount 0 s1))

/-- `APPLY addr len` (R130). Admission first, in the order of R131 and R193; then a range that is not ordinary memory
stops by name (R41, R48). -/
def execApply (addr len : Nat) (s : State) : Host.Outcome State Fault Refusal :=
  if isReady s then
    if addr + len > Config.BUF_SIZE then refuse .ERR_RANGE s
    else onOrdinary addr len s (respond .OK [] (applyStream addr len s))
  else refuse .ERR_NOT_INIT s

end Sys2Proof.Machine
end

