-- ==== Sys2Proof/Machine/Init.lean ====
section
/-! DEFINITION. Machine/Init.lean: `INIT`, the Table Initializer (41_init.md, rules R100 to R106). -/

namespace Sys2Proof.Machine

/-- `INIT key iv` (R100). Accepted in either `ST`; the old state is not read. -/
def execInit (key iv : Key) (s : State) : Host.Outcome State Fault Refusal :=
  respond .OK [] (setReady (tableInit key iv s))

end Sys2Proof.Machine
end

