-- ==== Sys2Proof/Machine/Next.lean ====
section
/-! DEFINITION. Machine/Next.lean: the command `NEXTW` (42_nextword.md, rule R121). -/

namespace Sys2Proof.Machine

/-- `NEXTW` (R121): one keystream word as four data bytes; the carry is neither read nor written. -/
def execNextw (s : State) : Host.Outcome State Fault Refusal :=
  if isReady s then
    let r := nextWord s
    respond .OK (wordBytes r.1) r.2
  else refuse .ERR_NOT_INIT s

end Sys2Proof.Machine
end

