-- ==== Sys2Proof/Machine/Release.lean ====
section
/-! DEFINITION. Machine/Release.lean: `RELEASE`, zero on release (45_release.md, rule R160). -/

namespace Sys2Proof.Machine

/-- `RELEASE` (R160). Accepted in either `ST`. -/
def execRelease (s : State) : Host.Outcome State Fault Refusal :=
  respond .OK [] (wipeBlock s)

end Sys2Proof.Machine
end

