-- ==== Sys2Proof/Machine/Seek.lean ====
section
/-! DEFINITION. Machine/Seek.lean: `INITAT`, the seek construction (44_seek.md, rules R150 to R152). -/

namespace Sys2Proof.Machine

/-- The partial word: with `rem > 0` one more word is drawn and its last `4 − rem` bytes are kept (R152). -/
def seekTail (rem : Nat) (s : State) : State :=
  if rem = 0 then s
  else
    let r := nextWord s
    storeCarry rem r.1 r.2

/-- The seek proper: `offset div 4` whole words dropped (R151), then the partial word (R152). -/
def seek (offset : Nat) (s : State) : State :=
  seekTail (offset % 4) (skip (offset / 4) s)

/-- `INITAT key iv offset` (R150). Accepted in either `ST`; the old state is not read. -/
def execInitAt (key iv : Key) (offset : Nat) (s : State) : Host.Outcome State Fault Refusal :=
  respond .OK [] (setReady (seek offset (tableInit key iv s)))

end Sys2Proof.Machine
end

