-- ==== Sys2Proof/Machine/Dispatch.lean ====
section
/-! DEFINITION. Machine/Dispatch.lean: one arm per command of rule R58. -/

namespace Sys2Proof.Machine

def exec (i : Instr) (s : State) : Host.Outcome State Fault Refusal :=
  match i with
  | .init key iv => Sys2Proof.Machine.execInit key iv s
  | .initAt key iv offset => Sys2Proof.Machine.execInitAt key iv offset s
  | .nextw => Sys2Proof.Machine.execNextw s
  | .apply addr len => Sys2Proof.Machine.execApply addr len s
  | .release => Sys2Proof.Machine.execRelease s

end Sys2Proof.Machine
end

