-- ==== Sys2Proof/Machine/Port.lean ====
section
/-! DEFINITION. Machine/Port.lean: what each move of the host does: a packet at the command port (rules R50, R51, R59),
reset (R215), reset in mid-command (R218), a host store to `BUF` (R4, R43), and an idle block (R204, R230). -/

namespace Sys2Proof.Machine

/-- A packet: decoded without reading state (R59); an illegal one is refused with its code (R188, R189), a legal one is
run to its response (R51). -/
def runPacket (b : Packet) (s : State) : Host.Outcome State Fault Refusal :=
  match decode b with
  | .ok i => exec i s
  | .error c => refuse c s

/-- Reset: the block's state is the reset state, there is no response, `BUF` is not touched (R215). -/
def resetEvent (s : State) : Host.Outcome State Fault Refusal :=
  .next (withResponse none (wipeBlock s))

/-- The buffer an abandoned `APPLY` leaves: bytes `0 .. k0` of the range as the whole command would leave them, bytes
`k0 .. L` as they were (R39, R218); a refused `APPLY` has accessed nothing (R186). -/
def abandonedApply (addr len k0 : Nat) (s : State) : Host.Outcome State Fault Refusal :=
  match execApply addr len s with
  | .next t => resetEvent (withBuf (copyPrefix t.buf s.buf addr (min k0 len)) s)
  | .fault r => .fault r
  | .refused r => .refused r

/-- Reset while the command of packet `b` runs: no response, the reset state, and only an `APPLY` leaves a trace, in its
range (R218). -/
def abandon (b : Packet) (k0 : Nat) (s : State) : Host.Outcome State Fault Refusal :=
  match decode b with
  | .ok (.apply addr len) => abandonedApply addr len k0 s
  | .ok _ => resetEvent s
  | .error _ => resetEvent s

/-- A host store to `BUF` between commands (R4, R42, R43). Log entry 9. -/
def hostWrite (addr : BitVec 32) (v : Byte) (s : State) : Host.Outcome State Fault Refusal :=
  onOrdinary addr.toNat 1 s (.next (withBuf (Memory.write s.buf addr.toNat v) s))

/-- No move: the block is idle and keeps its state; the response has been delivered (R204, R230). Log entry 4. -/
def idle (s : State) : Host.Outcome State Fault Refusal :=
  .next (withResponse none s)

/-- The effect of one host move on the state it finds (R229). -/
def runMove (m : HostMove) (s : State) : Host.Outcome State Fault Refusal :=
  match m with
  | .packet b => runPacket b s
  | .reset => resetEvent s
  | .resetDuring b _ k0 => abandon b k0 s
  | .bufWrite addr v => hostWrite addr v s

end Sys2Proof.Machine
end

