-- ==== Sys2Proof/Machine/Step.lean ====
section
/-! DEFINITION. Machine/Step.lean: one step is one move of the host, taken from the front of `inputs` (rules R4, R51: "a
model has one step per command"). The move is gone and the port's last response delivered before the move acts. -/

namespace Sys2Proof.Machine

/-- One step. -/
def step (s : State) : Host.Outcome State Fault Refusal :=
  match s.inputs with
  | [] => idle s
  | m :: rest => runMove m (withInputs rest (withResponse none s))

/-- The state with the packet of an opcode-table word as the host's next move. -/
def State.withFetchWord (s : State) (nbits w : Nat) : State :=
  withInputs (.packet (tablePacket nbits w) :: s.inputs) s

end Sys2Proof.Machine
end

