-- ==== Sys2Proof/Machine/Stream.lean ====
section
/-! DEFINITION. Machine/Stream.lean: the keystream that 46_laws.md defines over `NextWord` (rules R170 to R172), and what
one `APPLY` draws from it (R141). Nothing here is state: the block stores no position (R172). -/

namespace Sys2Proof.Machine

/-- Two states whose generators agree: the values of `(P, Q, index)` that R170 speaks of. -/
def SameGen (s t : State) : Prop :=
  s.P = t.P ∧ s.Q = t.Q ∧ s.index = t.index

/-- The word that the `(n+1)`-th call of `NextWord` from `s` returns (R170). -/
def wordAt (n : Nat) (s : State) : Word :=
  (nextWord (skip n s)).1

/-- The `k`-th keystream byte that a session in state `s` delivers next: first the carry, from its lowest valid position
up (R12, R133), then the bytes of the words still to be drawn (R136, R138, R171). -/
def streamByte (s : State) (k : Nat) : Byte :=
  let c := s.pendingCount.toNat
  if k < c then carryAt s.pendingBytes (3 - c + k)
  else byteOf ((k - c) % 4) (wordAt ((k - c) / 4) s)

/-- How many words an admitted `APPLY` of `len` bytes draws when it finds `c` pending bytes (R141). -/
def wordsDrawn (c len : Nat) : Nat :=
  if len ≤ c then 0 else (len - c + 3) / 4

/-- How many bytes are pending after it (R141). -/
def countAfter (c len : Nat) : Nat :=
  if len ≤ c then c - len else (4 - (len - c) % 4) % 4

/-- `G0(key, iv)`: the state at the end of `TableInit`, from the reset state (R170). -/
def freshSession (key iv : Key) : State :=
  tableInit key iv State.reset

/-- `s_n(key, iv)` (R170). -/
def ksWord (key iv : Key) (n : Nat) : Word :=
  wordAt n (freshSession key iv)

/-- `KS(key, iv)`: `KS[4n + t] = byte_t(s_n)` (R171). -/
def KS (key iv : Key) (k : Nat) : Byte :=
  byteOf (k % 4) (ksWord key iv (k / 4))

end Sys2Proof.Machine
end

