-- ==== Sys2Proof/Safety.lean ====
section
/-! DEFINITION. Safety.lean: the invariant of a safe run (rules R14 to R16, R18), the premises of claims (R222, R234) and
the words the claims use: sequences of commands, the position of a session (R172), and what two states share. -/

namespace Sys2Proof.Machine

/-- R15: `pendingBytes[p] = 0` for every position `p < 3 − pendingCount`. -/
abbrev PendingClean (s : State) : Prop :=
  ∀ p : Fin 3, p.val < 3 - s.pendingCount.toNat → s.pendingBytes.get p = 0

/-- R18: the scratch is zero at every command boundary. -/
abbrev ScratchClear (s : State) : Prop :=
  s.W = Arr.fill 2560 0

/-- R16: in `EMPTY` every element has its reset value. -/
abbrev EmptyIsReset (s : State) : Prop :=
  s.ST = .EMPTY → s.P = Arr.fill 1024 0 ∧ s.Q = Arr.fill 1024 0 ∧ s.index = 0 ∧
    s.pendingBytes = Arr.fill 3 0 ∧ s.pendingCount = 0

/-- The invariant of every command boundary: R15, R16, R18, and `BUF` in canonical form. -/
abbrev BoundaryInv (s : State) : Prop :=
  PendingClean s ∧ ScratchClear s ∧ EmptyIsReset s ∧ Memory.wf s.buf = true

/-- The premises under which `APPLY` is carried out: initialized (R190), a range that ends in the space (R131, R191) and
lies in backed ordinary memory (R222). -/
abbrev Admitted (s : State) (addr len : Nat) : Prop :=
  s.ST = .READY ∧ addr + len ≤ Config.BUF_SIZE ∧ ordinaryRange s addr len = true

/-- The block's own state, all seven elements of 10_state.md section 1, is the same in both. -/
abbrev SameBlock (s t : State) : Prop :=
  s.P = t.P ∧ s.Q = t.Q ∧ s.W = t.W ∧ s.index = t.index ∧ s.pendingBytes = t.pendingBytes ∧
    s.pendingCount = t.pendingCount ∧ s.ST = t.ST

/-- What lies outside the block is the same in both: `BUF`, the platform and the host's moves to come. -/
abbrev SameOutside (s t : State) : Prop :=
  s.buf = t.buf ∧ s.platform = t.platform ∧ s.inputs = t.inputs

/-- Commands carried out one after another, each after the previous response (R51, R230), up to the first stop. -/
def runAll : List Instr → State → Host.Outcome State Fault Refusal
  | [], s => .next s
  | i :: is, s =>
    match exec i s with
    | .next t => runAll is t
    | .fault r => .fault r
    | .refused r => .refused r

/-- The `APPLY` commands that work off a range piece by piece: `APPLY a L1; APPLY a+L1 L2; ...` (R174). -/
def pieces : Nat → List Nat → List Instr
  | _, [] => []
  | a, len :: lens => .apply a len :: pieces (a + len) lens

/-- The session stands at byte `pos` of the keystream of `key` and `iv`, after `words` words (R172): its generator is the
initialized one after `words` calls, `pos = 4 * words − pendingCount`, and the valid pending bytes are the keystream bytes
from `pos` on. -/
def AtPosition (key iv : Key) (words pos : Nat) (s : State) : Prop :=
  s.ST = .READY ∧ SameGen s (skip words (freshSession key iv)) ∧
    pos + s.pendingCount.toNat = 4 * words ∧
    ∀ t, t < s.pendingCount.toNat → carryAt s.pendingBytes (3 - s.pendingCount.toNat + t) = KS key iv (pos + t)

/-- The first byte of a packet as a number (R52 `opcode`). -/
def opcodeOf (b : Packet) : Nat := (b.headD 0).toNat

/-- The one code that R193 gives a packet in a state: the empty packet, the opcode, the length, initialization, the
range, in this order. `OK` where no cause applies. -/
def firstCause (b : Packet) (s : State) : Code :=
  if b = [] then .ERR_FORMAT
  else if opcodeOf b = 0 ∨ 5 < opcodeOf b then .ERR_ILLEGAL_OP
  else if b.length ≠ formatLength (opcodeOf b) then .ERR_FORMAT
  else if (opcodeOf b = 3 ∨ opcodeOf b = 4) ∧ s.ST = .EMPTY then .ERR_NOT_INIT
  else if opcodeOf b = 4 ∧ Config.BUF_SIZE < leNat ((b.drop 1).take 4) + leNat ((b.drop 5).take 4) then .ERR_RANGE
  else .OK

end Sys2Proof.Machine
end

