-- ==== Sys2Proof/Certificates/Slice0/Obligations.lean ====
section
/-! DEFINITION. Certificates/Slice0/Obligations.lean: the statements for the provers. Each docstring names the rule of spec/
it formalises; `s` is any state, also one that no run reaches, unless a premise says otherwise. -/

open Sys2Proof Sys2Proof.Machine

/-! ## Encoding and decoding -/

/-- R59. Decoding and encoding agree in both directions: a packet decodes to a command exactly if it is the encoding of
that well-formed command, with every operand at every value its width admits; encoding is injective; every other packet
is illegal with the code R59 gives it, and is refused with that code. -/
def Obligations.DecodeInvertsEncode : Prop :=
  (∀ (b : Packet) (i : Instr), decode b = .ok i ↔ WellFormed i = true ∧ encode i = b) ∧
  (∀ i j : Instr, WellFormed i = true → WellFormed j = true → encode i = encode j → i = j) ∧
  (∀ (b : Packet) (c : Code), decode b = .error c ↔
    (c = .ERR_FORMAT ∧ b = []) ∨
    (c = .ERR_FORMAT ∧ b ≠ [] ∧
      ((opcodeOf b = 1 ∧ b.length ≠ 65) ∨ (opcodeOf b = 2 ∧ b.length ≠ 73) ∨ (opcodeOf b = 3 ∧ b.length ≠ 1) ∨
        (opcodeOf b = 4 ∧ b.length ≠ 9) ∨ (opcodeOf b = 5 ∧ b.length ≠ 1))) ∨
    (c = .ERR_ILLEGAL_OP ∧ b ≠ [] ∧ (opcodeOf b = 0 ∨ 6 ≤ opcodeOf b))) ∧
  (∀ (b : Packet) (c : Code) (s : State), decode b = .error c → runPacket b s = refuse c s)

/-- R70, which the spec marks as derived. The worked encodings, and what the worked responses are on the port. -/
def Obligations.WorkedEncodingsAreRead : Prop :=
  decode (0x01#8 :: List.replicate 64 0x00#8) = .ok (.init (Arr.fill 32 0) (Arr.fill 32 0)) ∧
  decode (0x01#8 :: (List.replicate 32 0x00#8 ++ 0x01#8 :: List.replicate 31 0x00#8)) =
    .ok (.init (Arr.fill 32 0) ((Arr.fill 32 0).set 0 0x01)) ∧
  decode (0x01#8 :: 0x55#8 :: List.replicate 63 0x00#8) = .ok (.init ((Arr.fill 32 0).set 0 0x55) (Arr.fill 32 0)) ∧
  decode (0x02#8 :: (List.replicate 64 0x00#8 ++ [0x05#8, 0, 0, 0, 0, 0, 0, 0])) =
    .ok (.initAt (Arr.fill 32 0) (Arr.fill 32 0) 5) ∧
  decode [0x03#8] = .ok .nextw ∧
  decode [0x04#8, 0x00, 0x10, 0x00, 0x00, 0x20, 0x00, 0x00, 0x00] = .ok (.apply 0x1000 32) ∧
  decode [0x04#8, 0x00, 0x10, 0x00, 0x00, 0x00, 0x00, 0x00, 0x00] = .ok (.apply 0x1000 0) ∧
  decode [0x04#8, 0xf0, 0xff, 0xff, 0xff, 0x10, 0x00, 0x00, 0x00] = .ok (.apply 0xfffffff0 16) ∧
  decode [0x04#8, 0xf0, 0xff, 0xff, 0xff, 0x11, 0x00, 0x00, 0x00] = .ok (.apply 0xfffffff0 17) ∧
  (∀ s : State, s.ST = .READY → s.platform = [] →
    (∃ t, exec (.apply 0xfffffff0 16) s = .next t ∧ t.response = some ⟨.OK, []⟩) ∧
    (∃ t, exec (.apply 0xfffffff0 17) s = .next t ∧ t.response = some ⟨.ERR_RANGE, []⟩)) ∧
  decode [0x05#8] = .ok .release ∧
  Response.bytes ⟨.OK, []⟩ = [0x00] ∧
  Response.bytes ⟨.OK, wordBytes 0x8589075b⟩ = [0x00, 0x5b, 0x07, 0x89, 0x85] ∧
  Response.bytes ⟨.ERR_NOT_INIT, []⟩ = [0x03]

/-- R188. A packet of any non-zero length whose first byte is `0x00` or in `0x06 .. 0xff` is refused with
`ERR_ILLEGAL_OP`, and nothing changes. -/
def Obligations.IllegalOpcodePacketRefused : Prop :=
  ∀ (s : State) (op : Byte) (bs : List Byte), (op.toNat = 0 ∨ 6 ≤ op.toNat) →
    runPacket (op :: bs) s = .next { s with response := some ⟨.ERR_ILLEGAL_OP, []⟩ }

/-- R189, R61. The empty packet, and a packet with a legal opcode and another length than that opcode's format, is refused
with `ERR_FORMAT`; nothing changes, and no byte of it reaches any state element. -/
def Obligations.WrongLengthPacketRefused : Prop :=
  ∀ (s : State) (b : Packet),
    (b = [] ∨ (opcodeOf b = 1 ∧ b.length ≠ 65) ∨ (opcodeOf b = 2 ∧ b.length ≠ 73) ∨
      (opcodeOf b = 3 ∧ b.length ≠ 1) ∨ (opcodeOf b = 4 ∧ b.length ≠ 9) ∨
      (opcodeOf b = 5 ∧ b.length ≠ 1)) →
    runPacket b s = .next { s with response := some ⟨.ERR_FORMAT, []⟩ }

/-! ## The step -/

/-- 30_encoding.md sections 1 and 4 (one step per command). A step on a packet presents it to the block: on the state with
the packet taken and the last response delivered it runs the command the packet decodes to, and refuses an illegal packet
with its code. That the host's moves stand in a list is the model's choice (log entry 1). -/
def Obligations.StepRunsDecodedPacket : Prop :=
  ∀ (s : State) (b : Packet) (rest : List HostMove), s.inputs = .packet b :: rest →
    step s = runPacket b { s with inputs := rest, response := none } ∧
    (∀ i : Instr, decode b = .ok i → step s = exec i { s with inputs := rest, response := none }) ∧
    (∀ c : Code, decode b = .error c → step s = .next { s with inputs := rest, response := some ⟨c, []⟩ })

/-- 30_encoding.md sections 1 and 4. A step on the encoding of any well-formed command runs that command. -/
def Obligations.StepRunsEncodedCommand : Prop :=
  ∀ (s : State) (i : Instr) (rest : List HostMove), WellFormed i = true → s.inputs = .packet (encode i) :: rest →
    step s = exec i { s with inputs := rest, response := none }

/-- 30_encoding.md section 2 (the bit view). A word of the opcode table, placed by `withFetchWord`, is the command the very
next step runs. How a program comes to run is the model's choice (log entry 2). -/
def Obligations.TableWordIsNextCommand : Prop :=
  ∀ (s : State) (nbits w : Nat) (i : Instr), decodeTableWord nbits w = some i →
    step (s.withFetchWord nbits w) = exec i { s with response := none }

/-- 60_exceptions.md section 7 and 70_reset_and_hazards.md section 4. With no move of the host the block is idle and keeps
its state. That this is a step, and that the response is then gone, is the model's choice (log entries 3 and 4). -/
def Obligations.IdleStepKeepsState : Prop :=
  ∀ s : State, s.inputs = [] → step s = .next { s with response := none }

/-- 70_reset_and_hazards.md section 1. The reset event between commands: the reset state, no response, `BUF` not touched. That
the platform and the host's further moves stay is the model's choice (log entries 1 and 6). -/
def Obligations.ResetEventGivesResetState : Prop :=
  ∀ (s : State) (rest : List HostMove), s.inputs = .reset :: rest →
    step s = .next { State.reset with buf := s.buf, platform := s.platform, inputs := rest }

/-- 70_reset_and_hazards.md section 1. Reset in the middle of any command, whatever it had done: no response, the reset
state, a waiting packet dropped; and unless the command is an `APPLY` that was admitted, `BUF` is as it was. How the
move is written, and the frame of the platform and the further moves, are the model's (log entries 1, 6 and 8). -/
def Obligations.ResetInMidCommandGivesResetState : Prop :=
  ∀ (s t : State) (b : Packet) (w : Option Packet) (k0 : Nat) (rest : List HostMove),
    s.inputs = .resetDuring b w k0 :: rest → Memory.wf s.buf = true → step s = .next t →
    SameBlock t State.reset ∧ t.response = none ∧ t.inputs = rest ∧ t.platform = s.platform ∧
    (t.buf = s.buf ∨ ∃ addr len, decode b = .ok (.apply addr len) ∧ Admitted s addr len)

/-- 70_reset_and_hazards.md section 1. Reset in the middle of an admitted `APPLY` that had done `k0` bytes: the first `k0`
bytes of the range are transformed, every other byte of `BUF` is as it was, the block is reset. How the move is written, and
the frame of the platform and the further moves, are the model's (log entries 1, 6 and 8). -/
def Obligations.ResetInMidApplyLeavesPrefix : Prop :=
  ∀ (s : State) (addr len k0 : Nat) (w : Option Packet) (rest : List HostMove),
    WellFormed (.apply addr len) = true → Admitted s addr len → Memory.wf s.buf = true →
    s.inputs = .resetDuring (encode (.apply addr len)) w k0 :: rest →
    ∃ m : Memory, step s = .next { State.reset with buf := m, platform := s.platform, inputs := rest } ∧
      Memory.wf m = true ∧
      ∀ a : Nat, Memory.read m a =
        if addr ≤ a ∧ a < addr + min k0 len then Memory.read s.buf a ^^^ streamByte s (a - addr)
        else Memory.read s.buf a

/-- 00_scope.md section 5 and 20_memory.md section 8. A store of the host between commands changes one byte of `BUF` and
nothing else. That it is a move in the model is the model's choice (log entry 9). -/
def Obligations.HostStoreWritesOneByte : Prop :=
  ∀ (s : State) (addr : BitVec 32) (v : Byte) (rest : List HostMove),
    s.inputs = .bufWrite addr v :: rest → ordinaryRange s addr.toNat 1 = true → Memory.wf s.buf = true →
    ∃ m : Memory, step s = .next { s with buf := m, inputs := rest, response := none } ∧
      ∀ a : Nat, Memory.read m a = if a = addr.toNat then v else Memory.read s.buf a

/-! ## Refusals and responses -/

/-- R186. A refused command changes no state element and no byte of `BUF`, and its response is its code with no data. -/
def Obligations.RefusalChangesNothing : Prop :=
  ∀ (s t : State) (b : Packet) (r : Response), runPacket b s = .next t → t.response = some r → r.code ≠ .OK →
    t = { s with response := some ⟨r.code, []⟩ }

/-- R193. Exactly one cause is reported: the first of empty packet, illegal opcode, wrong length, not initialized, range;
and `OK` is reported exactly if none applies. -/
def Obligations.FirstCauseIsReported : Prop :=
  (∀ (s t : State) (b : Packet), runPacket b s = .next t → ∃ d : List Byte, t.response = some ⟨firstCause b s, d⟩) ∧
  ∀ s : State,
    firstCause [0x07, 0x00, 0x00] s = .ERR_ILLEGAL_OP ∧
    (s.ST = .EMPTY → firstCause (encode (.apply 0xfffffff0 17)) s = .ERR_NOT_INIT) ∧
    (∀ bs : List Byte, bs.length = 9 → s.ST = .EMPTY → firstCause (0x04#8 :: bs) s = .ERR_FORMAT)

/-- R67. `NEXTW` with code `OK` returns the keystream word's four bytes, lowest first; every other response has no data. -/
def Obligations.OnlyNextwReturnsData : Prop :=
  (∀ w : Word, wordBytes w = [byteOf 0 w, byteOf 1 w, byteOf 2 w, byteOf 3 w]) ∧
  ∀ (s t : State) (b : Packet), runPacket b s = .next t →
    ∃ r : Response, t.response = some r ∧
      (b = [0x03#8] → r.code = .OK → r.data = wordBytes (nextWord s).1) ∧
      (b ≠ [0x03#8] ∨ r.code ≠ .OK → r.data = [])

/-- 60_exceptions.md section 2 (the one assertion). No step reports `ERR_INVARIANT`. -/
def Obligations.AssertionNeverReported : Prop :=
  ∀ (s t : State) (r : Response), step s = .next t → t.response = some r → r.code ≠ .ERR_INVARIANT

/-! ## Arithmetic -/

/-- R80. `add32` is the sum modulo `2^32`, in any order of its terms. -/
def Obligations.AddIsSumModuloWord : Prop :=
  (∀ ws : List Word, (add32 ws).toNat = ((ws.map BitVec.toNat).foldl (· + ·) 0) % 2 ^ 32) ∧
  (∀ ws vs : List Word, ws.Perm vs → add32 ws = add32 vs) ∧
  add32 [0xffffffff, 1] = 0 ∧ add32 [0x80000000, 0x80000000] = 0 ∧ (∀ x : Word, add32 [x, 0] = x) ∧
  add32 [0x9e3779b9, 0x4df39c7f, 0x1bb50643] = 0x07e01c7b

/-- R81, which the spec marks as general knowledge. `rotr(x, n)` moves bit `(k + n) mod 32` of `x` to bit `k`. -/
def Obligations.RotateMovesBits : Prop :=
  (∀ (x : Word) (n : Nat), 1 ≤ n → n < 32 →
    (rotr x n).toNat = ((x.toNat >>> n) ||| (x.toNat <<< (32 - n))) % 2 ^ 32 ∧
    (∀ k : Nat, k < 32 → (rotr x n).getLsbD k = x.getLsbD ((k + n) % 32)) ∧
    rotr 0 n = 0 ∧ rotr 0xffffffff n = 0xffffffff) ∧
  rotr 1 7 = 0x02000000 ∧ rotr 0x12345678 10 = 0x9e048d15

/-- R84, R85. Words and bytes are little-endian, and each conversion undoes the other. -/
def Obligations.WordsAreLittleEndian : Prop :=
  (∀ b0 b1 b2 b3 : Byte,
    (le32 b0 b1 b2 b3).toNat = b0.toNat + 256 * b1.toNat + 65536 * b2.toNat + 16777216 * b3.toNat) ∧
  (∀ (t : Nat) (w : Word), t < 4 → (byteOf t w).toNat = (w.toNat >>> (8 * t)) &&& 0xff) ∧
  (∀ w : Word, le32 (byteOf 0 w) (byteOf 1 w) (byteOf 2 w) (byteOf 3 w) = w) ∧
  le32 0x00 0x01 0x02 0x03 = 0x03020100 ∧ le32 0x55 0 0 0 = 0x00000055 ∧
  wordBytes 0x8589075b = [0x5b, 0x07, 0x89, 0x85]

/-- 40_arith.md section 2. The expansion functions, with the constants of R87 and R88, and the examples given there. -/
def Obligations.ExpansionFunctions : Prop :=
  (∀ x : Word, f1 x = rotr x 7 ^^^ rotr x 18 ^^^ (x >>> 3) ∧ f2 x = rotr x 17 ^^^ rotr x 19 ^^^ (x >>> 10)) ∧
  f1 0 = 0 ∧ f1 0xffffffff = 0x1fffffff ∧ f1 0x00000001 = 0x02004000 ∧ f1 0x80000000 = 0x11002000 ∧
  f1 0x12345678 = 0xe7fce6ee ∧
  f2 0 = 0 ∧ f2 0xffffffff = 0x003fffff ∧ f2 0x00000001 = 0x0000a000 ∧ f2 0x00000010 = 0x000a0000 ∧
  f2 0x12345678 = 0xa1f78649

/-- 40_arith.md section 3. `g` reads the feeder at `(x xor y) mod 1024`; `h` reads one word in each quarter of it, at the
bytes of `x`. -/
def Obligations.MixingFunctionsReadFeeder : Prop :=
  ∀ (B : Table) (x y : Word),
    g B x y = add32 [rotr x 10 ^^^ rotr y 23, B.get (Fin.ofNat 1024 ((x.toNat ^^^ y.toNat) % 1024))] ∧
    h B x = add32 [B.get (Fin.ofNat 1024 (x.toNat &&& 0xff)),
      B.get (Fin.ofNat 1024 (256 + ((x.toNat >>> 8) &&& 0xff))),
      B.get (Fin.ofNat 1024 (512 + ((x.toNat >>> 16) &&& 0xff))),
      B.get (Fin.ofNat 1024 (768 + ((x.toNat >>> 24) &&& 0xff)))]

/-- R116, two of whose clauses the spec marks as derived. The five positions are floored remainders of integers, and they are pairwise different. -/
def Obligations.GeneratorPositions : Prop :=
  ∀ i : BitVec 11,
    ((posJ i).toNat : Int) = (i.toNat : Int) % 1024 ∧
    ((posJ3 i).toNat : Int) = ((i.toNat : Int) - 3) % 1024 ∧
    ((posJ10 i).toNat : Int) = ((i.toNat : Int) - 10) % 1024 ∧
    ((posJ12 i).toNat : Int) = ((i.toNat : Int) - 12) % 1024 ∧
    ((posJ1023 i).toNat : Int) = ((i.toNat : Int) + 1) % 1024 ∧
    ((posJ1023 i).toNat : Int) = ((i.toNat : Int) - 1023) % 1024 ∧
    [posJ i, posJ3 i, posJ10 i, posJ12 i, posJ1023 i].Pairwise (· ≠ ·)

/-! ## NextWord -/

/-- R117, R118. The two halves of `NextWord`, with the mixing functions written out over the feeder `B`: the active word
at `j` becomes the sum, the output is formed from that new word, the feeder and every other word stay, and nothing else
but `index` changes. `i` and `i + 1024` use the same positions. -/
def Obligations.NextWordHalves : Prop :=
  (∀ i : BitVec 11, posJ (i + 1024) = posJ i ∧ posJ3 (i + 1024) = posJ3 i ∧ posJ10 (i + 1024) = posJ10 i ∧
    posJ12 (i + 1024) = posJ12 i ∧ posJ1023 (i + 1024) = posJ1023 i) ∧
  ∀ s : State,
    let i := s.index
    let gOf : Table → Word → Word → Word := fun B x y =>
      add32 [rotr x 10 ^^^ rotr y 23, B.get (Fin.ofNat 1024 ((x.toNat ^^^ y.toNat) % 1024))]
    let hOf : Table → Word → Word := fun B x =>
      add32 [B.get (Fin.ofNat 1024 (x.toNat &&& 0xff)),
        B.get (Fin.ofNat 1024 (256 + ((x.toNat >>> 8) &&& 0xff))),
        B.get (Fin.ofNat 1024 (512 + ((x.toNat >>> 16) &&& 0xff))),
        B.get (Fin.ofNat 1024 (768 + ((x.toNat >>> 24) &&& 0xff)))]
    (i.toNat < 1024 →
      let v := add32 [readTable s.P (posJ i), readTable s.P (posJ10 i),
        gOf s.Q (readTable s.P (posJ3 i)) (readTable s.P (posJ1023 i))]
      (nextWord s).1 = hOf s.Q (readTable s.P (posJ12 i)) ^^^ v ∧
      (nextWord s).2 = { s with P := (nextWord s).2.P, index := i + 1 } ∧
      ∀ k, readTable (nextWord s).2.P k = if k = posJ i then v else readTable s.P k) ∧
    (1024 ≤ i.toNat →
      let v := add32 [readTable s.Q (posJ i), readTable s.Q (posJ10 i),
        gOf s.P (readTable s.Q (posJ3 i)) (readTable s.Q (posJ1023 i))]
      (nextWord s).1 = hOf s.P (readTable s.Q (posJ12 i)) ^^^ v ∧
      (nextWord s).2 = { s with Q := (nextWord s).2.Q, index := i + 1 } ∧
      ∀ k, readTable (nextWord s).2.Q k = if k = posJ i then v else readTable s.Q k)

/-- R119. `index` advances by 1 modulo 2048 on every call; 1024 calls flip the active table and 2048 bring `index` back. -/
def Obligations.IndexAfterWords : Prop :=
  (∀ (n : Nat) (s : State), (skip n s).index.toNat = (s.index.toNat + n) % 2048) ∧
  (∀ s : State, s.index.toNat = 2047 → (nextWord s).2.index.toNat = 0) ∧
  (∀ s : State, activeIsP (skip 1024 s) = !activeIsP s) ∧
  (∀ s : State, (skip 2048 s).index = s.index)

/-- R123, which the spec marks as derived. Every call writes one word, the active table's at `j`, with the sum of R117 or
R118, and no other. Over a cycle of 2048 calls the call at position `n` writes `P[n]` in the first half and `Q[n − 1024]`
in the second, so every word of `P` and then of `Q` is written exactly once, in increasing position. -/
def Obligations.OneWordWrittenPerCall : Prop :=
  let newWord : Table → Table → BitVec 11 → Word := fun A B i =>
    add32 [readTable A (posJ i), readTable A (posJ10 i), g B (readTable A (posJ3 i)) (readTable A (posJ1023 i))]
  (∀ s : State,
    (s.index.toNat < 1024 → (nextWord s).2.Q = s.Q ∧
      readTable (nextWord s).2.P (posJ s.index) = newWord s.P s.Q s.index ∧
      ∀ k, k ≠ posJ s.index → readTable (nextWord s).2.P k = readTable s.P k) ∧
    (1024 ≤ s.index.toNat → (nextWord s).2.P = s.P ∧
      readTable (nextWord s).2.Q (posJ s.index) = newWord s.Q s.P s.index ∧
      ∀ k, k ≠ posJ s.index → readTable (nextWord s).2.Q k = readTable s.Q k)) ∧
  ∀ (s : State) (n : Nat), s.index = 0 → n < 2048 →
    let a := skip n s
    let b := skip (n + 1) s
    (n < 1024 → b.Q = a.Q ∧ ∀ k : BitVec 10,
      readTable b.P k = if k.toNat = n then newWord a.P a.Q (BitVec.ofNat 11 n) else readTable a.P k) ∧
    (1024 ≤ n → b.P = a.P ∧ ∀ k : BitVec 10,
      readTable b.Q k = if k.toNat = n - 1024 then newWord a.Q a.P (BitVec.ofNat 11 n) else readTable a.Q k)

/-- 42_nextword.md section 2. On all-zero tables the generator returns the word 0 for ever and the tables stay zero. -/
def Obligations.ZeroTablesGiveZeroForEver : Prop :=
  ∀ (s : State) (n : Nat), s.P = Arr.fill 1024 0 → s.Q = Arr.fill 1024 0 →
    wordAt n s = 0 ∧ (skip n s).P = Arr.fill 1024 0 ∧ (skip n s).Q = Arr.fill 1024 0

/-- R121, for its effect: in `READY`, `NEXTW` answers `OK` with the word's bytes and leaves what one `NextWord` leaves; the
carry, `ST`, `W` and every byte of `BUF` stay. In `EMPTY` it is refused and nothing changes. -/
def Obligations.NextwReturnsOneWord : Prop :=
  (∀ s : State, s.ST = .READY → ∃ t, exec .nextw s = .next t ∧
    t.response = some ⟨.OK, wordBytes (nextWord s).1⟩ ∧ SameGen t (nextWord s).2 ∧ t.index = s.index + 1 ∧
    t.pendingBytes = s.pendingBytes ∧ t.pendingCount = s.pendingCount ∧ t.ST = .READY ∧ t.W = s.W ∧
    SameOutside t s) ∧
  (∀ s : State, s.ST = .EMPTY → exec .nextw s = .next { s with response := some ⟨.ERR_NOT_INIT, []⟩ })

/-! ## INIT -/

/-- R101. `W[0 .. 8)` holds the key and `W[8 .. 16)` the IV, each packed little-endian, whatever `W` held before. -/
def Obligations.ScratchStartsWithKeyAndIv : Prop :=
  ∀ (key iv : Key) (s : State) (k : Nat), k < 8 →
    readScratch (buildScratch key iv s).W k =
      le32 (key.get (Fin.ofNat 32 (4 * k))) (key.get (Fin.ofNat 32 (4 * k + 1)))
        (key.get (Fin.ofNat 32 (4 * k + 2))) (key.get (Fin.ofNat 32 (4 * k + 3))) ∧
    readScratch (buildScratch key iv s).W (8 + k) =
      le32 (iv.get (Fin.ofNat 32 (4 * k))) (iv.get (Fin.ofNat 32 (4 * k + 1)))
        (iv.get (Fin.ofNat 32 (4 * k + 2))) (iv.get (Fin.ofNat 32 (4 * k + 3)))

/-- R102. Every word of `W` from 16 to 2559 satisfies the recurrence. -/
def Obligations.ScratchMeetsRecurrence : Prop :=
  ∀ (key iv : Key) (s : State) (i : Nat), 16 ≤ i → i < 2560 →
    let W := readScratch (buildScratch key iv s).W
    W i = add32 [f2 (W (i - 2)), W (i - 7), f1 (W (i - 15)), W (i - 16), BitVec.ofNat 32 i]

/-- R103. `P` is `W[512 .. 1536)`, `Q` is `W[1536 .. 2560)`, and `W` is then zero. -/
def Obligations.TablesAreScratchSlices : Prop :=
  ∀ (s : State) (t : Nat), t < 1024 →
    (loadTables s).P.get (Fin.ofNat 1024 t) = readScratch s.W (512 + t) ∧
    (loadTables s).Q.get (Fin.ofNat 1024 t) = readScratch s.W (1536 + t) ∧
    ∀ i : Fin 2560, (wipeScratch (loadTables s)).W.get i = 0

/-- 41_init.md sections 1 and 2. `INIT` answers `OK` in every state: tables from the scratch after 4096 discarded words,
`index` 0, no carry, `W` zero, `READY`; every byte of `BUF` as it was. -/
def Obligations.InitCompletes : Prop :=
  ∀ (key iv : Key) (s : State),
    let loaded := clearPosition (wipeScratch (loadTables (buildScratch key iv s)))
    ∃ t, exec (.init key iv) s = .next t ∧
    t.P = (skip 4096 loaded).P ∧ t.Q = (skip 4096 loaded).Q ∧ (skip 4096 loaded).index = 0 ∧
    t.index = 0 ∧ t.pendingCount = 0 ∧ t.pendingBytes = Arr.fill 3 0 ∧ t.W = Arr.fill 2560 0 ∧ t.ST = .READY ∧
    t.response = some ⟨.OK, []⟩ ∧ SameOutside t s

/-- 41_init.md section 3 and 46_laws.md section 3. What `INIT` and `INITAT` leave in the block is a function of their
operands: nothing of the state before is left. -/
def Obligations.InitForgetsOldState : Prop :=
  ∀ (key iv : Key) (offset : Nat) (s s' : State),
    (∃ t t', exec (.init key iv) s = .next t ∧ exec (.init key iv) s' = .next t' ∧ SameBlock t t') ∧
    (∃ t t', exec (.initAt key iv offset) s = .next t ∧ exec (.initAt key iv offset) s' = .next t' ∧ SameBlock t t')

/-- 41_init.md section 2 and 46_laws.md section 1. After `INIT` the session stands at byte 0: the stream it delivers is the
keystream from its first byte, and the next word is `s_0`. -/
def Obligations.InitStandsAtByteZero : Prop :=
  ∀ (key iv : Key) (s : State), ∃ t, exec (.init key iv) s = .next t ∧ AtPosition key iv 0 0 t ∧
    (∀ k, streamByte t k = KS key iv k) ∧ (nextWord t).1 = ksWord key iv 0

/-! ## INITAT -/

/-- 44_seek.md. `INITAT` answers `OK` in every state and stands at byte `offset`: `ceil(offset / 4)` words drawn, the carry
the keystream bytes from `offset` on, zero below; every byte of `BUF` as it was. -/
def Obligations.InitAtCompletes : Prop :=
  ∀ (key iv : Key) (offset : Nat) (s : State), ∃ t, exec (.initAt key iv offset) s = .next t ∧
    AtPosition key iv ((offset + 3) / 4) offset t ∧ (∀ k, streamByte t k = KS key iv (offset + k)) ∧
    t.index.toNat = ((offset + 3) / 4) % 2048 ∧ t.pendingCount.toNat = (4 - offset % 4) % 4 ∧ PendingClean t ∧
    t.W = Arr.fill 2560 0 ∧ t.response = some ⟨.OK, []⟩ ∧ SameOutside t s

/-- R152. With `rem = offset mod 4`: `rem = 0` draws no extra word and keeps nothing; else the word holding byte `offset`
is drawn, its last `4 − rem` bytes are kept at positions `rem − 1 .. 3`, and the positions below stay zero. -/
def Obligations.SeekKeepsTrailingBytes : Prop :=
  ∀ (key iv : Key) (offset : Nat) (s : State),
    let w := wordAt (offset / 4) (tableInit key iv s)
    ∃ t, exec (.initAt key iv offset) s = .next t ∧
      (offset % 4 = 0 → SameGen t (skip (offset / 4) (tableInit key iv s)) ∧
        t.pendingBytes.toList = [0, 0, 0] ∧ t.pendingCount = 0) ∧
      (offset % 4 ≠ 0 → SameGen t (skip (offset / 4 + 1) (tableInit key iv s))) ∧
      (offset % 4 = 1 → t.pendingBytes.toList = [byteOf 1 w, byteOf 2 w, byteOf 3 w] ∧ t.pendingCount = 3) ∧
      (offset % 4 = 2 → t.pendingBytes.toList = [0, byteOf 2 w, byteOf 3 w] ∧ t.pendingCount = 2) ∧
      (offset % 4 = 3 → t.pendingBytes.toList = [0, 0, byteOf 3 w] ∧ t.pendingCount = 1)

/-- R154, which the spec marks as derived. `INITAT` with `offset = 0` leaves exactly what `INIT` leaves; and for every `offset`, what `INIT` and one
admitted `APPLY` of length `offset`, on any range, leave in the block. -/
def Obligations.SeekEqualsInitThenApply : Prop :=
  (∀ (key iv : Key) (s : State), exec (.initAt key iv 0) s = exec (.init key iv) s) ∧
  (∀ (key iv : Key) (offset addr : Nat) (s : State),
    addr + offset ≤ Config.BUF_SIZE → ordinaryRange s addr offset = true →
    ∃ t u, exec (.initAt key iv offset) s = .next t ∧
      runAll [.init key iv, .apply addr offset] s = .next u ∧ SameBlock t u)

/-- R175, which the spec marks as derived. Into a zeroed range, `INITAT key iv n; APPLY a m` writes the keystream bytes
`[n, n+m)`, for every `n`; these are the bytes that `INIT key iv; APPLY a' (n+m)` writes from the `n`-th on, where so long
a range fits the space. -/
def Obligations.SeekEquivalence : Prop :=
  (∀ (key iv : Key) (n m a : Nat) (s : State), Memory.wf s.buf = true →
    a + m ≤ Config.BUF_SIZE → ordinaryRange s a m = true → (∀ k, k < m → Memory.read s.buf (a + k) = 0) →
    ∃ t, runAll [.initAt key iv n, .apply a m] s = .next t ∧
      ∀ k, k < m → Memory.read t.buf (a + k) = KS key iv (n + k)) ∧
  (∀ (key iv : Key) (n m a' : Nat) (s : State), Memory.wf s.buf = true →
    a' + (n + m) ≤ Config.BUF_SIZE → ordinaryRange s a' (n + m) = true →
    (∀ k, k < n + m → Memory.read s.buf (a' + k) = 0) →
    ∃ u, runAll [.init key iv, .apply a' (n + m)] s = .next u ∧
      (∀ k, k < n + m → Memory.read u.buf (a' + k) = KS key iv k) ∧
      ∀ k, k < m → Memory.read u.buf (a' + (n + k)) = KS key iv (n + k))

/-! ## APPLY -/

/-- R131. The two checks, in this order, before anything is touched; a range ending at `2^32` passes, and with `L = 0` the
second check passes for every 32-bit `addr`. -/
def Obligations.ApplyAdmission : Prop :=
  (∀ (s : State) (addr len : Nat), s.ST = .EMPTY →
    exec (.apply addr len) s = .next { s with response := some ⟨.ERR_NOT_INIT, []⟩ }) ∧
  (∀ (s : State) (addr len : Nat), s.ST = .READY → 2 ^ 32 < addr + len →
    exec (.apply addr len) s = .next { s with response := some ⟨.ERR_RANGE, []⟩ }) ∧
  (∀ (s : State) (addr len : Nat), s.ST = .READY → addr + len ≤ 2 ^ 32 → ordinaryRange s addr len = true →
    ∃ t, exec (.apply addr len) s = .next t ∧ t.response = some ⟨.OK, []⟩) ∧
  (∀ (s : State) (addr : Nat), s.ST = .READY → addr < 2 ^ 32 →
    ∃ t, exec (.apply addr 0) s = .next t ∧ t.response = some ⟨.OK, []⟩)

/-- 43_apply.md section 1. An admitted `APPLY` answers `OK`: byte `k` of the range, at `addr + k`, is XORed with the `k`-th
byte of the stream; every byte outside the range reads as before; `ST` and `W` stay, and of the model's own
fields (log entries 1 and 6) the platform and the host's moves. -/
def Obligations.ApplyXorsStream : Prop :=
  ∀ (s : State) (addr len : Nat), Admitted s addr len → Memory.wf s.buf = true →
    ∃ t, exec (.apply addr len) s = .next t ∧
      (∀ k, k < len → Memory.read t.buf (addr + k) = Memory.read s.buf (addr + k) ^^^ streamByte s k) ∧
      (∀ a, a < addr ∨ addr + len ≤ a → Memory.read t.buf a = Memory.read s.buf a) ∧
      t.ST = .READY ∧ t.W = s.W ∧ t.platform = s.platform ∧ t.inputs = s.inputs ∧
      t.response = some ⟨.OK, []⟩

/-- R141, which the spec marks as derived. The number of words an admitted `APPLY` draws, `index` after it, and `pendingCount` after it. -/
def Obligations.ApplyDrawsWords : Prop :=
  ∀ (s : State) (addr len : Nat), Admitted s addr len →
    let c := s.pendingCount.toNat
    ∃ t, exec (.apply addr len) s = .next t ∧
      (len ≤ c → SameGen t s ∧ t.pendingCount.toNat = c - len) ∧
      (c < len → SameGen t (skip ((len - c + 3) / 4) s) ∧
        t.index.toNat = (s.index.toNat + (len - c + 3) / 4) % 2048 ∧
        t.pendingCount.toNat = (4 - (len - c) % 4) % 4)

/-- R135. With `L ≤ c` the carry serves the call: no generator step, `pendingCount` becomes `c − L`; `L = 0` changes
nothing at all; `L = c > 0` leaves no carry and, by the invariant of R15, an all-zero buffer. -/
def Obligations.ApplyEarlyEnd : Prop :=
  ∀ (s : State) (addr len : Nat), Admitted s addr len → len ≤ s.pendingCount.toNat →
    ∃ t, exec (.apply addr len) s = .next t ∧ t.response = some ⟨.OK, []⟩ ∧
      t.index = s.index ∧ t.P = s.P ∧ t.Q = s.Q ∧ t.pendingCount.toNat = s.pendingCount.toNat - len ∧
      (len = 0 → t = { s with response := some ⟨.OK, []⟩ }) ∧
      (0 < len → len = s.pendingCount.toNat → PendingClean s →
        t.pendingCount = 0 ∧ t.pendingBytes = Arr.fill 3 0)

/-- R138, R139, R140. With `L > c` and `r = (L − c) mod 4`: for `r = 0` no further word is drawn and the carry is cleared;
else one more word is drawn, its first `r` bytes are XORed into the last `r` bytes of the range and its last `4 − r` bytes
are kept at positions `r − 1 .. 3`, zero below (by R15). -/
def Obligations.ApplyTailKeepsCarry : Prop :=
  ∀ (s : State) (addr len : Nat), Admitted s addr len → PendingClean s → Memory.wf s.buf = true →
    s.pendingCount.toNat < len →
    let rest := len - s.pendingCount.toNat
    let w := wordAt (rest / 4) s
    let tail := addr + (len - rest % 4)
    ∃ t, exec (.apply addr len) s = .next t ∧
      (rest % 4 = 0 → SameGen t (skip (rest / 4) s) ∧ t.pendingBytes.toList = [0, 0, 0] ∧ t.pendingCount = 0) ∧
      (rest % 4 ≠ 0 → SameGen t (skip (rest / 4 + 1) s)) ∧
      (∀ n, n < rest % 4 → Memory.read t.buf (tail + n) = Memory.read s.buf (tail + n) ^^^ byteOf n w) ∧
      (rest % 4 = 1 → t.pendingBytes.toList = [byteOf 1 w, byteOf 2 w, byteOf 3 w] ∧ t.pendingCount = 3) ∧
      (rest % 4 = 2 → t.pendingBytes.toList = [0, byteOf 2 w, byteOf 3 w] ∧ t.pendingCount = 2) ∧
      (rest % 4 = 3 → t.pendingBytes.toList = [0, 0, byteOf 3 w] ∧ t.pendingCount = 1)

/-- R132, which the spec marks as derived. With the session at position `pos`, an admitted `APPLY` XORs the keystream bytes `pos .. pos + L` into the range,
leaves every other byte of `BUF`, and takes the position to `pos + L`. -/
def Obligations.ApplyDeliversKeystream : Prop :=
  ∀ (key iv : Key) (words pos : Nat) (s : State) (addr len : Nat),
    AtPosition key iv words pos s → Admitted s addr len → Memory.wf s.buf = true →
    ∃ t words', exec (.apply addr len) s = .next t ∧
      (∀ k, k < len → Memory.read t.buf (addr + k) = Memory.read s.buf (addr + k) ^^^ KS key iv (pos + k)) ∧
      (∀ a, a < addr ∨ addr + len ≤ a → Memory.read t.buf a = Memory.read s.buf a) ∧
      AtPosition key iv words' (pos + len) t

/-- 43_apply.md section 5 and 46_laws.md section 1. The stream a session delivers after an admitted `APPLY` is the one it
would have delivered, from its `L`-th byte on. -/
def Obligations.ApplyAdvancesStream : Prop :=
  ∀ (s : State) (addr len : Nat), Admitted s addr len →
    ∃ t, exec (.apply addr len) s = .next t ∧ ∀ k, streamByte t k = streamByte s (len + k)

/-- R174, which the spec marks as derived. Call splitting: however a range is cut into consecutive `APPLY` commands, zero lengths included, and whatever it
holds, the bytes in `BUF` and the block's state after them are those of one `APPLY` over the whole range. -/
def Obligations.CallSplittingInvariance : Prop :=
  ∀ (s : State) (a : Nat) (lens : List Nat), BoundaryInv s → Admitted s a lens.sum →
    ∃ t u, runAll (pieces a lens) s = .next t ∧ exec (.apply a lens.sum) s = .next u ∧
      t.buf = u.buf ∧ SameBlock t u

/-- R173, which the spec marks as derived. Involution: a session brought to the same position twice, and applied to the same range each time, restores what
the range held; `BUF` as a whole is as before. -/
def Obligations.ApplyTwiceFromSamePositionRestores : Prop :=
  ∀ (key iv : Key) (offset addr len : Nat) (s : State), Memory.wf s.buf = true →
    addr + len ≤ Config.BUF_SIZE → ordinaryRange s addr len = true →
    (∃ t, runAll [.initAt key iv offset, .apply addr len, .initAt key iv offset, .apply addr len] s = .next t ∧
      t.buf = s.buf) ∧
    (∃ t, runAll [.init key iv, .apply addr len, .init key iv, .apply addr len] s = .next t ∧ t.buf = s.buf)

/-- R172 for the position, which the spec marks as derived. `INIT` stands at 0 and `INITAT` at `offset`; an admitted
`APPLY` of `L` takes `pos` to `pos + L`; `NEXTW` with no byte pending takes it to `pos + 4`; `index` is the word count
modulo 2048. -/
def Obligations.PositionFollowsCommands : Prop :=
  (∀ (key iv : Key) (s : State), ∃ t, exec (.init key iv) s = .next t ∧ AtPosition key iv 0 0 t) ∧
  (∀ (key iv : Key) (offset : Nat) (s : State), ∃ t words, exec (.initAt key iv offset) s = .next t ∧
    AtPosition key iv words offset t) ∧
  ∀ (key iv : Key) (words pos : Nat) (s : State), AtPosition key iv words pos s →
    s.index.toNat = words % 2048 ∧
    (∀ addr len, Admitted s addr len → ∃ t words', exec (.apply addr len) s = .next t ∧ words ≤ words' ∧
      AtPosition key iv words' (pos + len) t) ∧
    (s.pendingCount = 0 → ∃ t, exec .nextw s = .next t ∧ AtPosition key iv (words + 1) (pos + 4) t)

/-- 20_memory.md sections 5 and 6, with the stops of log entry 7 (the model's choice): an `APPLY` that passes admission and
whose range meets a device is refused by name, and one whose range meets a hole and no device is stuck; one of length 0
never stops. -/
def Obligations.ApplyStopsOffOrdinaryMemory : Prop :=
  ∀ (s : State) (addr len : Nat), s.ST = .READY → addr + len ≤ Config.BUF_SIZE →
    (touches .device s.platform addr len = true → exec (.apply addr len) s = .refused .deviceRange) ∧
    (touches .device s.platform addr len = false → touches .hole s.platform addr len = true →
      exec (.apply addr len) s = .fault .unbacked) ∧
    (len = 0 → ∃ t, exec (.apply addr len) s = .next t)

/-- 93_implementation_defined.md U1 ("the block never uses a `BUF` byte for anything but the XOR"). Two runs of a command
that differ only in what `BUF` holds leave the same block and give the same response. -/
def Obligations.BufDataDoesNotReachBlock : Prop :=
  ∀ (i : Instr) (s t : State) (m : Memory), exec i s = .next t →
    ∃ u, exec i { s with buf := m } = .next u ∧ SameBlock t u ∧ t.response = u.response

/-- 70_reset_and_hazards.md section 5 ("never on key, IV or data"). Two runs of one `APPLY` or `NEXTW` from states that
agree on `index`, `pendingCount`, `ST` and the platform, whatever their tables, carry and `BUF`, agree on them after, and
report the same code. -/
def Obligations.CountsIndependentOfSecrets : Prop :=
  ∀ (i : Instr) (s s' t : State), (i = .nextw ∨ ∃ addr len, i = .apply addr len) →
    s.index = s'.index → s.pendingCount = s'.pendingCount → s.ST = s'.ST → s.platform = s'.platform →
    exec i s = .next t →
    ∃ t', exec i s' = .next t' ∧ t.index = t'.index ∧ t.pendingCount = t'.pendingCount ∧ t.ST = t'.ST ∧
      t.response.map Response.code = t'.response.map Response.code

/-! ## RELEASE, reset and the whole machine -/

/-- R160, and R177, which the spec marks as derived. `RELEASE` is the packet `05` and no longer one. After it the block is in the reset state, in either `ST`;
`BUF` is not touched; an `APPLY` of four bytes then answers `ERR_NOT_INIT` and changes nothing. The reset event leaves the
same. -/
def Obligations.ReleaseGivesResetState : Prop :=
  (encode .release = [0x05#8] ∧ ∀ bs : List Byte, bs ≠ [] → decode (0x05#8 :: bs) = .error .ERR_FORMAT) ∧
  ∀ s : State,
    exec .release s = .next { State.reset with
      buf := s.buf, platform := s.platform, inputs := s.inputs, response := some ⟨.OK, []⟩ } ∧
    (∃ t u, runAll [.release] s = .next t ∧ runAll [.release, .apply 0 4] s = .next u ∧
      u = { t with response := some ⟨.ERR_NOT_INIT, []⟩ }) ∧
    (∃ t, resetEvent s = .next t ∧ SameBlock t State.reset ∧ t.buf = s.buf)

/-- R217, which the spec marks as derived. In `EMPTY`, the state of the block after reset, `INIT`, `INITAT` and `RELEASE` succeed; `NEXTW` and `APPLY` are
refused with `ERR_NOT_INIT`, and the block stays `EMPTY` until `INIT` or `INITAT` makes it `READY`. -/
def Obligations.OnlyInitSucceedsAfterReset : Prop :=
  State.reset.ST = .EMPTY ∧
  ∀ s : State, s.ST = .EMPTY →
    (∀ key iv, ∃ t, exec (.init key iv) s = .next t ∧ t.response = some ⟨.OK, []⟩ ∧ t.ST = .READY) ∧
    (∀ key iv offset, ∃ t, exec (.initAt key iv offset) s = .next t ∧ t.response = some ⟨.OK, []⟩ ∧ t.ST = .READY) ∧
    (∃ t, exec .release s = .next t ∧ t.response = some ⟨.OK, []⟩ ∧ t.ST = .EMPTY) ∧
    exec .nextw s = .next { s with response := some ⟨.ERR_NOT_INIT, []⟩ } ∧
    (∀ addr len, exec (.apply addr len) s = .next { s with response := some ⟨.ERR_NOT_INIT, []⟩ })

/-- 10_state.md section 9. Every element of the block after reset. -/
def Obligations.ResetValues : Prop :=
  (∀ k, State.reset.P.get k = 0) ∧ (∀ k, State.reset.Q.get k = 0) ∧ (∀ i, State.reset.W.get i = 0) ∧
  State.reset.index = 0 ∧ State.reset.pendingBytes.toList = [0, 0, 0] ∧ State.reset.pendingCount = 0 ∧
  State.reset.ST = .EMPTY

/-- The invariant of R15, R16, R18 and of `BUF`'s canonical form holds at reset. -/
def Obligations.ResetMeetsInvariant : Prop :=
  BoundaryInv State.reset

/-- The invariant of R15, R16, R18 and of `BUF`'s canonical form is kept by every step: every command with every operand,
every refusal, reset at any moment, a store of the host. -/
def Obligations.StepKeepsInvariant : Prop :=
  ∀ s t : State, BoundaryInv s → step s = .next t → BoundaryInv t

/-- 10_state.md sections 4 and 10 (the lifecycle). A step leaves `READY` only on a `RELEASE` packet or a reset, and
`EMPTY` only on an `INIT` or `INITAT` packet. -/
def Obligations.LifecycleTransitions : Prop :=
  ∀ s t : State, step s = .next t →
    (s.ST = .READY → t.ST = .EMPTY →
      s.inputs.head? = some (.packet [0x05#8]) ∨ s.inputs.head? = some .reset ∨
      ∃ b w k0, s.inputs.head? = some (.resetDuring b w k0)) ∧
    (s.ST = .EMPTY → t.ST = .READY →
      ∃ b, s.inputs.head? = some (.packet b) ∧
        ((b.length = 65 ∧ opcodeOf b = 1) ∨ (b.length = 73 ∧ opcodeOf b = 2)))

/-- 20_memory.md section 1 (who reaches `BUF`). A step changes `BUF` only on an `APPLY` packet, finished or abandoned, or on
a store of the host, and then only within the range. That the host stores one byte a move (log entry 9), that the platform
stands in the state and never changes (log entry 6), and that a step takes one move from a list (log entry 1) are the
model's choices. -/
def Obligations.OnlyApplyAndHostStoreToBuf : Prop :=
  ∀ s t : State, Memory.wf s.buf = true → step s = .next t →
    t.platform = s.platform ∧ t.inputs = s.inputs.tail ∧
    ∀ a, Memory.read t.buf a ≠ Memory.read s.buf a →
      (∃ b addr len, (s.inputs.head? = some (.packet b) ∨ ∃ w k0, s.inputs.head? = some (.resetDuring b w k0)) ∧
        decode b = .ok (.apply addr len) ∧ addr ≤ a ∧ a < addr + len) ∨
      (∃ addr v, s.inputs.head? = some (.bufWrite addr v) ∧ a = addr.toNat)
end

