-- ==== Sys2Proof/Laws/Arr.lean ====
section
/-! SUPPORT. Laws/Arr.lean: read after write on arrays of fixed length, and equality element by element. -/

namespace Sys2Proof

@[ext] theorem Arr.ext_get {α : Type} {n : Nat} {a b : Arr α n} (hab : ∀ i, a.get i = b.get i) : a = b := by
  obtain ⟨la, ha⟩ := a
  obtain ⟨lb, hb⟩ := b
  have hl : la = lb := by
    refine List.ext_getElem (by omega) fun k hk _ => ?_
    exact hab ⟨k, by omega⟩
  subst hl
  rfl

@[simp] theorem Arr.get_set_same {α : Type} {n : Nat} (a : Arr α n) (i : Fin n) (v : α) :
    (a.set i v).get i = v := by
  simp [Arr.get, Arr.set]

theorem Arr.get_set_ne {α : Type} {n : Nat} (a : Arr α n) {i j : Fin n} (v : α) (hij : i ≠ j) :
    (a.set i v).get j = a.get j := by
  have hne : i.val ≠ j.val := fun hv => hij (Fin.ext hv)
  simp [Arr.get, Arr.set, hne]

theorem Arr.get_set {α : Type} {n : Nat} (a : Arr α n) (i j : Fin n) (v : α) :
    (a.set i v).get j = if i = j then v else a.get j := by
  by_cases hij : i = j
  · subst hij; simp
  · simp [hij, Arr.get_set_ne a v hij]

@[simp] theorem Arr.get_fill {α : Type} (n : Nat) (v : α) (i : Fin n) : (Arr.fill n v).get i = v := by
  simp [Arr.get, Arr.fill]

theorem getElem_listFrom {α : Type} (f : Nat → α) : ∀ (n k i : Nat) (hi : i < (listFrom f k n).length),
    (listFrom f k n)[i] = f (k + i) := by
  intro n
  induction n with
  | zero => intro k i hi; rw [length_listFrom] at hi; omega
  | succ n ih =>
    intro k i hi
    cases i with
    | zero => rfl
    | succ i =>
      have hstep : (listFrom f (k + 1) n)[i]'(by rw [length_listFrom] at hi ⊢; omega) = f (k + 1 + i) := ih _ _ _
      simpa [listFrom, Nat.add_assoc, Nat.add_comm 1 i] using hstep

@[simp] theorem Arr.get_build {α : Type} (n : Nat) (f : Nat → α) (i : Fin n) :
    (Arr.build n f).get i = f i.val := by
  simp [Arr.get, Arr.build, getElem_listFrom]

@[simp] theorem Arr.length_toList {α : Type} {n : Nat} (a : Arr α n) : a.toList.length = n := a.length_eq

end Sys2Proof
end

