-- ==== Sys2Proof/Laws/State.lean ====
section
/-! SUPPORT. Laws/State.lean: one lemma per field for each shared operation on the state, so that no later proof unfolds a
record update. The plain updates hold by `rfl` once the state is taken apart (`cases s`: two states compared whole send the
kernel into their tables and loops); the loops by induction on their count. -/

namespace Sys2Proof.Machine

/-! ## withBuf -/

@[simp] theorem withBuf_P (m : Memory) (s : State) : (withBuf m s).P = s.P := by cases s; rfl
@[simp] theorem withBuf_Q (m : Memory) (s : State) : (withBuf m s).Q = s.Q := by cases s; rfl
@[simp] theorem withBuf_W (m : Memory) (s : State) : (withBuf m s).W = s.W := by cases s; rfl
@[simp] theorem withBuf_index (m : Memory) (s : State) : (withBuf m s).index = s.index := by cases s; rfl
@[simp] theorem withBuf_pendingBytes (m : Memory) (s : State) : (withBuf m s).pendingBytes = s.pendingBytes := by cases s; rfl
@[simp] theorem withBuf_pendingCount (m : Memory) (s : State) : (withBuf m s).pendingCount = s.pendingCount := by cases s; rfl
@[simp] theorem withBuf_ST (m : Memory) (s : State) : (withBuf m s).ST = s.ST := by cases s; rfl
@[simp] theorem withBuf_buf (m : Memory) (s : State) : (withBuf m s).buf = m := by cases s; rfl
@[simp] theorem withBuf_platform (m : Memory) (s : State) : (withBuf m s).platform = s.platform := by cases s; rfl
@[simp] theorem withBuf_inputs (m : Memory) (s : State) : (withBuf m s).inputs = s.inputs := by cases s; rfl
@[simp] theorem withBuf_response (m : Memory) (s : State) : (withBuf m s).response = s.response := by cases s; rfl

/-! ## withCount -/

@[simp] theorem withCount_P (n : BitVec 2) (s : State) : (withCount n s).P = s.P := by cases s; rfl
@[simp] theorem withCount_Q (n : BitVec 2) (s : State) : (withCount n s).Q = s.Q := by cases s; rfl
@[simp] theorem withCount_W (n : BitVec 2) (s : State) : (withCount n s).W = s.W := by cases s; rfl
@[simp] theorem withCount_index (n : BitVec 2) (s : State) : (withCount n s).index = s.index := by cases s; rfl
@[simp] theorem withCount_pendingBytes (n : BitVec 2) (s : State) : (withCount n s).pendingBytes = s.pendingBytes := by cases s; rfl
@[simp] theorem withCount_pendingCount (n : BitVec 2) (s : State) : (withCount n s).pendingCount = n := by cases s; rfl
@[simp] theorem withCount_ST (n : BitVec 2) (s : State) : (withCount n s).ST = s.ST := by cases s; rfl
@[simp] theorem withCount_buf (n : BitVec 2) (s : State) : (withCount n s).buf = s.buf := by cases s; rfl
@[simp] theorem withCount_platform (n : BitVec 2) (s : State) : (withCount n s).platform = s.platform := by cases s; rfl
@[simp] theorem withCount_inputs (n : BitVec 2) (s : State) : (withCount n s).inputs = s.inputs := by cases s; rfl
@[simp] theorem withCount_response (n : BitVec 2) (s : State) : (withCount n s).response = s.response := by cases s; rfl

/-! ## rewind -/

@[simp] theorem rewind_P (s : State) : (rewind s).P = s.P := by cases s; rfl
@[simp] theorem rewind_Q (s : State) : (rewind s).Q = s.Q := by cases s; rfl
@[simp] theorem rewind_W (s : State) : (rewind s).W = s.W := by cases s; rfl
@[simp] theorem rewind_index (s : State) : (rewind s).index = 0 := by cases s; rfl
@[simp] theorem rewind_pendingBytes (s : State) : (rewind s).pendingBytes = s.pendingBytes := by cases s; rfl
@[simp] theorem rewind_pendingCount (s : State) : (rewind s).pendingCount = s.pendingCount := by cases s; rfl
@[simp] theorem rewind_ST (s : State) : (rewind s).ST = s.ST := by cases s; rfl
@[simp] theorem rewind_buf (s : State) : (rewind s).buf = s.buf := by cases s; rfl
@[simp] theorem rewind_platform (s : State) : (rewind s).platform = s.platform := by cases s; rfl
@[simp] theorem rewind_inputs (s : State) : (rewind s).inputs = s.inputs := by cases s; rfl
@[simp] theorem rewind_response (s : State) : (rewind s).response = s.response := by cases s; rfl

/-! ## setReady -/

@[simp] theorem setReady_P (s : State) : (setReady s).P = s.P := by cases s; rfl
@[simp] theorem setReady_Q (s : State) : (setReady s).Q = s.Q := by cases s; rfl
@[simp] theorem setReady_W (s : State) : (setReady s).W = s.W := by cases s; rfl
@[simp] theorem setReady_index (s : State) : (setReady s).index = s.index := by cases s; rfl
@[simp] theorem setReady_pendingBytes (s : State) : (setReady s).pendingBytes = s.pendingBytes := by cases s; rfl
@[simp] theorem setReady_pendingCount (s : State) : (setReady s).pendingCount = s.pendingCount := by cases s; rfl
@[simp] theorem setReady_ST (s : State) : (setReady s).ST = .READY := by cases s; rfl
@[simp] theorem setReady_buf (s : State) : (setReady s).buf = s.buf := by cases s; rfl
@[simp] theorem setReady_platform (s : State) : (setReady s).platform = s.platform := by cases s; rfl
@[simp] theorem setReady_inputs (s : State) : (setReady s).inputs = s.inputs := by cases s; rfl
@[simp] theorem setReady_response (s : State) : (setReady s).response = s.response := by cases s; rfl

/-! ## withResponse -/

@[simp] theorem withResponse_P (r : Option Response) (s : State) : (withResponse r s).P = s.P := by cases s; rfl
@[simp] theorem withResponse_Q (r : Option Response) (s : State) : (withResponse r s).Q = s.Q := by cases s; rfl
@[simp] theorem withResponse_W (r : Option Response) (s : State) : (withResponse r s).W = s.W := by cases s; rfl
@[simp] theorem withResponse_index (r : Option Response) (s : State) : (withResponse r s).index = s.index := by cases s; rfl
@[simp] theorem withResponse_pendingBytes (r : Option Response) (s : State) : (withResponse r s).pendingBytes = s.pendingBytes := by cases s; rfl
@[simp] theorem withResponse_pendingCount (r : Option Response) (s : State) : (withResponse r s).pendingCount = s.pendingCount := by cases s; rfl
@[simp] theorem withResponse_ST (r : Option Response) (s : State) : (withResponse r s).ST = s.ST := by cases s; rfl
@[simp] theorem withResponse_buf (r : Option Response) (s : State) : (withResponse r s).buf = s.buf := by cases s; rfl
@[simp] theorem withResponse_platform (r : Option Response) (s : State) : (withResponse r s).platform = s.platform := by cases s; rfl
@[simp] theorem withResponse_inputs (r : Option Response) (s : State) : (withResponse r s).inputs = s.inputs := by cases s; rfl
@[simp] theorem withResponse_response (r : Option Response) (s : State) : (withResponse r s).response = r := by cases s; rfl

/-! ## withInputs -/

@[simp] theorem withInputs_P (ms : List HostMove) (s : State) : (withInputs ms s).P = s.P := by cases s; rfl
@[simp] theorem withInputs_Q (ms : List HostMove) (s : State) : (withInputs ms s).Q = s.Q := by cases s; rfl
@[simp] theorem withInputs_W (ms : List HostMove) (s : State) : (withInputs ms s).W = s.W := by cases s; rfl
@[simp] theorem withInputs_index (ms : List HostMove) (s : State) : (withInputs ms s).index = s.index := by cases s; rfl
@[simp] theorem withInputs_pendingBytes (ms : List HostMove) (s : State) : (withInputs ms s).pendingBytes = s.pendingBytes := by cases s; rfl
@[simp] theorem withInputs_pendingCount (ms : List HostMove) (s : State) : (withInputs ms s).pendingCount = s.pendingCount := by cases s; rfl
@[simp] theorem withInputs_ST (ms : List HostMove) (s : State) : (withInputs ms s).ST = s.ST := by cases s; rfl
@[simp] theorem withInputs_buf (ms : List HostMove) (s : State) : (withInputs ms s).buf = s.buf := by cases s; rfl
@[simp] theorem withInputs_platform (ms : List HostMove) (s : State) : (withInputs ms s).platform = s.platform := by cases s; rfl
@[simp] theorem withInputs_inputs (ms : List HostMove) (s : State) : (withInputs ms s).inputs = ms := by cases s; rfl
@[simp] theorem withInputs_response (ms : List HostMove) (s : State) : (withInputs ms s).response = s.response := by cases s; rfl

/-! ## drainByte -/

@[simp] theorem drainByte_P (a p : Nat) (s : State) : (drainByte a p s).P = s.P := by cases s; rfl
@[simp] theorem drainByte_Q (a p : Nat) (s : State) : (drainByte a p s).Q = s.Q := by cases s; rfl
@[simp] theorem drainByte_W (a p : Nat) (s : State) : (drainByte a p s).W = s.W := by cases s; rfl
@[simp] theorem drainByte_index (a p : Nat) (s : State) : (drainByte a p s).index = s.index := by cases s; rfl
@[simp] theorem drainByte_pendingBytes (a p : Nat) (s : State) : (drainByte a p s).pendingBytes = clearAt s.pendingBytes p := by cases s; rfl
@[simp] theorem drainByte_pendingCount (a p : Nat) (s : State) : (drainByte a p s).pendingCount = s.pendingCount := by cases s; rfl
@[simp] theorem drainByte_ST (a p : Nat) (s : State) : (drainByte a p s).ST = s.ST := by cases s; rfl
@[simp] theorem drainByte_buf (a p : Nat) (s : State) : (drainByte a p s).buf = xorByteAt s.buf a (carryAt s.pendingBytes p) := by cases s; rfl
@[simp] theorem drainByte_platform (a p : Nat) (s : State) : (drainByte a p s).platform = s.platform := by cases s; rfl
@[simp] theorem drainByte_inputs (a p : Nat) (s : State) : (drainByte a p s).inputs = s.inputs := by cases s; rfl
@[simp] theorem drainByte_response (a p : Nat) (s : State) : (drainByte a p s).response = s.response := by cases s; rfl

/-! ## storeCarry -/

@[simp] theorem storeCarry_P (r : Nat) (w : Word) (s : State) : (storeCarry r w s).P = s.P := by cases s; rfl
@[simp] theorem storeCarry_Q (r : Nat) (w : Word) (s : State) : (storeCarry r w s).Q = s.Q := by cases s; rfl
@[simp] theorem storeCarry_W (r : Nat) (w : Word) (s : State) : (storeCarry r w s).W = s.W := by cases s; rfl
@[simp] theorem storeCarry_index (r : Nat) (w : Word) (s : State) : (storeCarry r w s).index = s.index := by cases s; rfl
@[simp] theorem storeCarry_pendingBytes (r : Nat) (w : Word) (s : State) : (storeCarry r w s).pendingBytes = keepTail r w s.pendingBytes := by cases s; rfl
@[simp] theorem storeCarry_pendingCount (r : Nat) (w : Word) (s : State) : (storeCarry r w s).pendingCount = BitVec.ofNat 2 (4 - r) := by cases s; rfl
@[simp] theorem storeCarry_ST (r : Nat) (w : Word) (s : State) : (storeCarry r w s).ST = s.ST := by cases s; rfl
@[simp] theorem storeCarry_buf (r : Nat) (w : Word) (s : State) : (storeCarry r w s).buf = s.buf := by cases s; rfl
@[simp] theorem storeCarry_platform (r : Nat) (w : Word) (s : State) : (storeCarry r w s).platform = s.platform := by cases s; rfl
@[simp] theorem storeCarry_inputs (r : Nat) (w : Word) (s : State) : (storeCarry r w s).inputs = s.inputs := by cases s; rfl
@[simp] theorem storeCarry_response (r : Nat) (w : Word) (s : State) : (storeCarry r w s).response = s.response := by cases s; rfl

/-! ## clearCarry -/

@[simp] theorem clearCarry_P (s : State) : (clearCarry s).P = s.P := by cases s; rfl
@[simp] theorem clearCarry_Q (s : State) : (clearCarry s).Q = s.Q := by cases s; rfl
@[simp] theorem clearCarry_W (s : State) : (clearCarry s).W = s.W := by cases s; rfl
@[simp] theorem clearCarry_index (s : State) : (clearCarry s).index = s.index := by cases s; rfl
@[simp] theorem clearCarry_pendingBytes (s : State) : (clearCarry s).pendingBytes = Arr.fill 3 0 := by cases s; rfl
@[simp] theorem clearCarry_pendingCount (s : State) : (clearCarry s).pendingCount = 0 := by cases s; rfl
@[simp] theorem clearCarry_ST (s : State) : (clearCarry s).ST = s.ST := by cases s; rfl
@[simp] theorem clearCarry_buf (s : State) : (clearCarry s).buf = s.buf := by cases s; rfl
@[simp] theorem clearCarry_platform (s : State) : (clearCarry s).platform = s.platform := by cases s; rfl
@[simp] theorem clearCarry_inputs (s : State) : (clearCarry s).inputs = s.inputs := by cases s; rfl
@[simp] theorem clearCarry_response (s : State) : (clearCarry s).response = s.response := by cases s; rfl

/-! ## buildScratch -/

@[simp] theorem buildScratch_P (key iv : Key) (s : State) : (buildScratch key iv s).P = s.P := by cases s; rfl
@[simp] theorem buildScratch_Q (key iv : Key) (s : State) : (buildScratch key iv s).Q = s.Q := by cases s; rfl
@[simp] theorem buildScratch_W (key iv : Key) (s : State) : (buildScratch key iv s).W = expandScratch (Config.SCRATCH_LEN - Config.W_FIRST) (loadKeyIv key iv 8 s.W) := by cases s; rfl
@[simp] theorem buildScratch_index (key iv : Key) (s : State) : (buildScratch key iv s).index = s.index := by cases s; rfl
@[simp] theorem buildScratch_pendingBytes (key iv : Key) (s : State) : (buildScratch key iv s).pendingBytes = s.pendingBytes := by cases s; rfl
@[simp] theorem buildScratch_pendingCount (key iv : Key) (s : State) : (buildScratch key iv s).pendingCount = s.pendingCount := by cases s; rfl
@[simp] theorem buildScratch_ST (key iv : Key) (s : State) : (buildScratch key iv s).ST = s.ST := by cases s; rfl
@[simp] theorem buildScratch_buf (key iv : Key) (s : State) : (buildScratch key iv s).buf = s.buf := by cases s; rfl
@[simp] theorem buildScratch_platform (key iv : Key) (s : State) : (buildScratch key iv s).platform = s.platform := by cases s; rfl
@[simp] theorem buildScratch_inputs (key iv : Key) (s : State) : (buildScratch key iv s).inputs = s.inputs := by cases s; rfl
@[simp] theorem buildScratch_response (key iv : Key) (s : State) : (buildScratch key iv s).response = s.response := by cases s; rfl

/-! ## loadTables -/

@[simp] theorem loadTables_P (s : State) : (loadTables s).P = Arr.build 1024 fun t => readScratch s.W (Config.P_BASE + t) := by cases s; rfl
@[simp] theorem loadTables_Q (s : State) : (loadTables s).Q = Arr.build 1024 fun t => readScratch s.W (Config.Q_BASE + t) := by cases s; rfl
@[simp] theorem loadTables_W (s : State) : (loadTables s).W = s.W := by cases s; rfl
@[simp] theorem loadTables_index (s : State) : (loadTables s).index = s.index := by cases s; rfl
@[simp] theorem loadTables_pendingBytes (s : State) : (loadTables s).pendingBytes = s.pendingBytes := by cases s; rfl
@[simp] theorem loadTables_pendingCount (s : State) : (loadTables s).pendingCount = s.pendingCount := by cases s; rfl
@[simp] theorem loadTables_ST (s : State) : (loadTables s).ST = s.ST := by cases s; rfl
@[simp] theorem loadTables_buf (s : State) : (loadTables s).buf = s.buf := by cases s; rfl
@[simp] theorem loadTables_platform (s : State) : (loadTables s).platform = s.platform := by cases s; rfl
@[simp] theorem loadTables_inputs (s : State) : (loadTables s).inputs = s.inputs := by cases s; rfl
@[simp] theorem loadTables_response (s : State) : (loadTables s).response = s.response := by cases s; rfl

/-! ## wipeScratch -/

@[simp] theorem wipeScratch_P (s : State) : (wipeScratch s).P = s.P := by cases s; rfl
@[simp] theorem wipeScratch_Q (s : State) : (wipeScratch s).Q = s.Q := by cases s; rfl
@[simp] theorem wipeScratch_W (s : State) : (wipeScratch s).W = Arr.fill 2560 0 := by cases s; rfl
@[simp] theorem wipeScratch_index (s : State) : (wipeScratch s).index = s.index := by cases s; rfl
@[simp] theorem wipeScratch_pendingBytes (s : State) : (wipeScratch s).pendingBytes = s.pendingBytes := by cases s; rfl
@[simp] theorem wipeScratch_pendingCount (s : State) : (wipeScratch s).pendingCount = s.pendingCount := by cases s; rfl
@[simp] theorem wipeScratch_ST (s : State) : (wipeScratch s).ST = s.ST := by cases s; rfl
@[simp] theorem wipeScratch_buf (s : State) : (wipeScratch s).buf = s.buf := by cases s; rfl
@[simp] theorem wipeScratch_platform (s : State) : (wipeScratch s).platform = s.platform := by cases s; rfl
@[simp] theorem wipeScratch_inputs (s : State) : (wipeScratch s).inputs = s.inputs := by cases s; rfl
@[simp] theorem wipeScratch_response (s : State) : (wipeScratch s).response = s.response := by cases s; rfl

/-! ## wipeBlock -/

@[simp] theorem wipeBlock_P (s : State) : (wipeBlock s).P = Arr.fill 1024 0 := by cases s; rfl
@[simp] theorem wipeBlock_Q (s : State) : (wipeBlock s).Q = Arr.fill 1024 0 := by cases s; rfl
@[simp] theorem wipeBlock_W (s : State) : (wipeBlock s).W = Arr.fill 2560 0 := by cases s; rfl
@[simp] theorem wipeBlock_index (s : State) : (wipeBlock s).index = 0 := by cases s; rfl
@[simp] theorem wipeBlock_pendingBytes (s : State) : (wipeBlock s).pendingBytes = Arr.fill 3 0 := by cases s; rfl
@[simp] theorem wipeBlock_pendingCount (s : State) : (wipeBlock s).pendingCount = 0 := by cases s; rfl
@[simp] theorem wipeBlock_ST (s : State) : (wipeBlock s).ST = .EMPTY := by cases s; rfl
@[simp] theorem wipeBlock_buf (s : State) : (wipeBlock s).buf = s.buf := by cases s; rfl
@[simp] theorem wipeBlock_platform (s : State) : (wipeBlock s).platform = s.platform := by cases s; rfl
@[simp] theorem wipeBlock_inputs (s : State) : (wipeBlock s).inputs = s.inputs := by cases s; rfl
@[simp] theorem wipeBlock_response (s : State) : (wipeBlock s).response = s.response := by cases s; rfl

/-! ## clearPosition -/

@[simp] theorem clearPosition_P (s : State) : (clearPosition s).P = s.P := by simp [clearPosition]
@[simp] theorem clearPosition_Q (s : State) : (clearPosition s).Q = s.Q := by simp [clearPosition]
@[simp] theorem clearPosition_W (s : State) : (clearPosition s).W = s.W := by simp [clearPosition]
@[simp] theorem clearPosition_index (s : State) : (clearPosition s).index = 0 := by simp [clearPosition]
@[simp] theorem clearPosition_pendingBytes (s : State) : (clearPosition s).pendingBytes = Arr.fill 3 0 := by simp [clearPosition]
@[simp] theorem clearPosition_pendingCount (s : State) : (clearPosition s).pendingCount = 0 := by simp [clearPosition]
@[simp] theorem clearPosition_ST (s : State) : (clearPosition s).ST = s.ST := by simp [clearPosition]
@[simp] theorem clearPosition_buf (s : State) : (clearPosition s).buf = s.buf := by simp [clearPosition]
@[simp] theorem clearPosition_platform (s : State) : (clearPosition s).platform = s.platform := by simp [clearPosition]
@[simp] theorem clearPosition_inputs (s : State) : (clearPosition s).inputs = s.inputs := by simp [clearPosition]
@[simp] theorem clearPosition_response (s : State) : (clearPosition s).response = s.response := by simp [clearPosition]

/-! ## nextWord -/

@[simp] theorem nextWord_W (s : State) : (nextWord s).2.W = s.W := by unfold nextWord; split <;> rfl
@[simp] theorem nextWord_index (s : State) : (nextWord s).2.index = s.index + 1 := by unfold nextWord; split <;> rfl
@[simp] theorem nextWord_pendingBytes (s : State) : (nextWord s).2.pendingBytes = s.pendingBytes := by unfold nextWord; split <;> rfl
@[simp] theorem nextWord_pendingCount (s : State) : (nextWord s).2.pendingCount = s.pendingCount := by unfold nextWord; split <;> rfl
@[simp] theorem nextWord_ST (s : State) : (nextWord s).2.ST = s.ST := by unfold nextWord; split <;> rfl
@[simp] theorem nextWord_buf (s : State) : (nextWord s).2.buf = s.buf := by unfold nextWord; split <;> rfl
@[simp] theorem nextWord_platform (s : State) : (nextWord s).2.platform = s.platform := by unfold nextWord; split <;> rfl
@[simp] theorem nextWord_inputs (s : State) : (nextWord s).2.inputs = s.inputs := by unfold nextWord; split <;> rfl
@[simp] theorem nextWord_response (s : State) : (nextWord s).2.response = s.response := by unfold nextWord; split <;> rfl

/-- With `P` active only `P` and `index` change (R117). -/
theorem nextWord_of_active_P {s : State} (hp : activeIsP s = true) :
    nextWord s = ((halfStep s.P s.Q s.index).1, { s with P := (halfStep s.P s.Q s.index).2, index := s.index + 1 }) := by
  simp [nextWord, hp]

/-- With `Q` active only `Q` and `index` change (R118). -/
theorem nextWord_of_active_Q {s : State} (hq : activeIsP s = false) :
    nextWord s = ((halfStep s.Q s.P s.index).1, { s with Q := (halfStep s.Q s.P s.index).2, index := s.index + 1 }) := by
  simp [nextWord, hq]

/-! ## skip -/

@[simp] theorem skip_zero (s : State) : skip 0 s = s := rfl

theorem skip_succ (n : Nat) (s : State) : skip (n + 1) s = skip n (nextWord s).2 := rfl

theorem skip_add (m n : Nat) (s : State) : skip (m + n) s = skip n (skip m s) := by
  induction m generalizing s with
  | zero => rw [Nat.zero_add, skip_zero]
  | succ m ih => rw [Nat.succ_add, skip_succ, ih, skip_succ]

/-- The last of `n + 1` words is drawn after the first `n`. -/
theorem skip_succ_last (n : Nat) (s : State) : skip (n + 1) s = (nextWord (skip n s)).2 := by
  rw [skip_add, skip_succ, skip_zero]

@[simp] theorem skip_W (n : Nat) (s : State) : (skip n s).W = s.W := by
  induction n generalizing s with
  | zero => rfl
  | succ n ih => rw [skip_succ, ih, nextWord_W]

@[simp] theorem skip_pendingBytes (n : Nat) (s : State) : (skip n s).pendingBytes = s.pendingBytes := by
  induction n generalizing s with
  | zero => rfl
  | succ n ih => rw [skip_succ, ih, nextWord_pendingBytes]

@[simp] theorem skip_pendingCount (n : Nat) (s : State) : (skip n s).pendingCount = s.pendingCount := by
  induction n generalizing s with
  | zero => rfl
  | succ n ih => rw [skip_succ, ih, nextWord_pendingCount]

@[simp] theorem skip_ST (n : Nat) (s : State) : (skip n s).ST = s.ST := by
  induction n generalizing s with
  | zero => rfl
  | succ n ih => rw [skip_succ, ih, nextWord_ST]

@[simp] theorem skip_buf (n : Nat) (s : State) : (skip n s).buf = s.buf := by
  induction n generalizing s with
  | zero => rfl
  | succ n ih => rw [skip_succ, ih, nextWord_buf]

@[simp] theorem skip_platform (n : Nat) (s : State) : (skip n s).platform = s.platform := by
  induction n generalizing s with
  | zero => rfl
  | succ n ih => rw [skip_succ, ih, nextWord_platform]

@[simp] theorem skip_inputs (n : Nat) (s : State) : (skip n s).inputs = s.inputs := by
  induction n generalizing s with
  | zero => rfl
  | succ n ih => rw [skip_succ, ih, nextWord_inputs]

@[simp] theorem skip_response (n : Nat) (s : State) : (skip n s).response = s.response := by
  induction n generalizing s with
  | zero => rfl
  | succ n ih => rw [skip_succ, ih, nextWord_response]

/-! ## warmUp, tableInit -/

@[simp] theorem warmUp_P (s : State) : (warmUp s).P = (skip Config.WARMUP s).P := by simp [warmUp]
@[simp] theorem warmUp_Q (s : State) : (warmUp s).Q = (skip Config.WARMUP s).Q := by simp [warmUp]
@[simp] theorem warmUp_W (s : State) : (warmUp s).W = s.W := by simp [warmUp]
@[simp] theorem warmUp_index (s : State) : (warmUp s).index = 0 := by simp [warmUp]
@[simp] theorem warmUp_pendingBytes (s : State) : (warmUp s).pendingBytes = s.pendingBytes := by simp [warmUp]
@[simp] theorem warmUp_pendingCount (s : State) : (warmUp s).pendingCount = s.pendingCount := by simp [warmUp]
@[simp] theorem warmUp_ST (s : State) : (warmUp s).ST = s.ST := by simp [warmUp]
@[simp] theorem warmUp_buf (s : State) : (warmUp s).buf = s.buf := by simp [warmUp]
@[simp] theorem warmUp_platform (s : State) : (warmUp s).platform = s.platform := by simp [warmUp]
@[simp] theorem warmUp_inputs (s : State) : (warmUp s).inputs = s.inputs := by simp [warmUp]
@[simp] theorem warmUp_response (s : State) : (warmUp s).response = s.response := by simp [warmUp]

@[simp] theorem tableInit_W (key iv : Key) (s : State) : (tableInit key iv s).W = Arr.fill 2560 0 := by simp [tableInit]
@[simp] theorem tableInit_index (key iv : Key) (s : State) : (tableInit key iv s).index = 0 := by simp [tableInit]
@[simp] theorem tableInit_pendingBytes (key iv : Key) (s : State) : (tableInit key iv s).pendingBytes = Arr.fill 3 0 := by simp [tableInit]
@[simp] theorem tableInit_pendingCount (key iv : Key) (s : State) : (tableInit key iv s).pendingCount = 0 := by simp [tableInit]
@[simp] theorem tableInit_ST (key iv : Key) (s : State) : (tableInit key iv s).ST = s.ST := by simp [tableInit]
@[simp] theorem tableInit_buf (key iv : Key) (s : State) : (tableInit key iv s).buf = s.buf := by simp [tableInit]
@[simp] theorem tableInit_platform (key iv : Key) (s : State) : (tableInit key iv s).platform = s.platform := by simp [tableInit]
@[simp] theorem tableInit_inputs (key iv : Key) (s : State) : (tableInit key iv s).inputs = s.inputs := by simp [tableInit]
@[simp] theorem tableInit_response (key iv : Key) (s : State) : (tableInit key iv s).response = s.response := by simp [tableInit]

/-! ## drain -/

@[simp] theorem drain_P (addr c n o : Nat) (s : State) : (drain addr c n o s).P = s.P := by
  induction n generalizing o s with
  | zero => rfl
  | succ n ih => rw [drain, ih, drainByte_P]

@[simp] theorem drain_Q (addr c n o : Nat) (s : State) : (drain addr c n o s).Q = s.Q := by
  induction n generalizing o s with
  | zero => rfl
  | succ n ih => rw [drain, ih, drainByte_Q]

@[simp] theorem drain_W (addr c n o : Nat) (s : State) : (drain addr c n o s).W = s.W := by
  induction n generalizing o s with
  | zero => rfl
  | succ n ih => rw [drain, ih, drainByte_W]

@[simp] theorem drain_index (addr c n o : Nat) (s : State) : (drain addr c n o s).index = s.index := by
  induction n generalizing o s with
  | zero => rfl
  | succ n ih => rw [drain, ih, drainByte_index]

@[simp] theorem drain_pendingCount (addr c n o : Nat) (s : State) : (drain addr c n o s).pendingCount = s.pendingCount := by
  induction n generalizing o s with
  | zero => rfl
  | succ n ih => rw [drain, ih, drainByte_pendingCount]

@[simp] theorem drain_ST (addr c n o : Nat) (s : State) : (drain addr c n o s).ST = s.ST := by
  induction n generalizing o s with
  | zero => rfl
  | succ n ih => rw [drain, ih, drainByte_ST]

@[simp] theorem drain_platform (addr c n o : Nat) (s : State) : (drain addr c n o s).platform = s.platform := by
  induction n generalizing o s with
  | zero => rfl
  | succ n ih => rw [drain, ih, drainByte_platform]

@[simp] theorem drain_inputs (addr c n o : Nat) (s : State) : (drain addr c n o s).inputs = s.inputs := by
  induction n generalizing o s with
  | zero => rfl
  | succ n ih => rw [drain, ih, drainByte_inputs]

@[simp] theorem drain_response (addr c n o : Nat) (s : State) : (drain addr c n o s).response = s.response := by
  induction n generalizing o s with
  | zero => rfl
  | succ n ih => rw [drain, ih, drainByte_response]

/-! ## xorWord, bulk -/

@[simp] theorem xorWord_P (a r : Nat) (s : State) : (xorWord a r s).P = (nextWord s).2.P := by simp [xorWord]
@[simp] theorem xorWord_Q (a r : Nat) (s : State) : (xorWord a r s).Q = (nextWord s).2.Q := by simp [xorWord]
@[simp] theorem xorWord_W (a r : Nat) (s : State) : (xorWord a r s).W = s.W := by simp [xorWord]
@[simp] theorem xorWord_index (a r : Nat) (s : State) : (xorWord a r s).index = s.index + 1 := by simp [xorWord]
@[simp] theorem xorWord_pendingBytes (a r : Nat) (s : State) : (xorWord a r s).pendingBytes = s.pendingBytes := by simp [xorWord]
@[simp] theorem xorWord_pendingCount (a r : Nat) (s : State) : (xorWord a r s).pendingCount = s.pendingCount := by simp [xorWord]
@[simp] theorem xorWord_ST (a r : Nat) (s : State) : (xorWord a r s).ST = s.ST := by simp [xorWord]
@[simp] theorem xorWord_platform (a r : Nat) (s : State) : (xorWord a r s).platform = s.platform := by simp [xorWord]
@[simp] theorem xorWord_inputs (a r : Nat) (s : State) : (xorWord a r s).inputs = s.inputs := by simp [xorWord]
@[simp] theorem xorWord_response (a r : Nat) (s : State) : (xorWord a r s).response = s.response := by simp [xorWord]
@[simp] theorem xorWord_buf (a r : Nat) (s : State) :
    (xorWord a r s).buf = xorRun s.buf a ((wordBytes (nextWord s).1).take r) := by simp [xorWord]

@[simp] theorem bulk_W (addr m o : Nat) (s : State) : (bulk addr m o s).W = s.W := by
  induction m generalizing o s with
  | zero => rfl
  | succ m ih => rw [bulk, ih, xorWord_W]

@[simp] theorem bulk_pendingBytes (addr m o : Nat) (s : State) : (bulk addr m o s).pendingBytes = s.pendingBytes := by
  induction m generalizing o s with
  | zero => rfl
  | succ m ih => rw [bulk, ih, xorWord_pendingBytes]

@[simp] theorem bulk_pendingCount (addr m o : Nat) (s : State) : (bulk addr m o s).pendingCount = s.pendingCount := by
  induction m generalizing o s with
  | zero => rfl
  | succ m ih => rw [bulk, ih, xorWord_pendingCount]

@[simp] theorem bulk_ST (addr m o : Nat) (s : State) : (bulk addr m o s).ST = s.ST := by
  induction m generalizing o s with
  | zero => rfl
  | succ m ih => rw [bulk, ih, xorWord_ST]

@[simp] theorem bulk_platform (addr m o : Nat) (s : State) : (bulk addr m o s).platform = s.platform := by
  induction m generalizing o s with
  | zero => rfl
  | succ m ih => rw [bulk, ih, xorWord_platform]

@[simp] theorem bulk_inputs (addr m o : Nat) (s : State) : (bulk addr m o s).inputs = s.inputs := by
  induction m generalizing o s with
  | zero => rfl
  | succ m ih => rw [bulk, ih, xorWord_inputs]

@[simp] theorem bulk_response (addr m o : Nat) (s : State) : (bulk addr m o s).response = s.response := by
  induction m generalizing o s with
  | zero => rfl
  | succ m ih => rw [bulk, ih, xorWord_response]

end Sys2Proof.Machine
end

