-- ==== Sys2Proof/Laws/Generator.lean ====
section
/-! SUPPORT. Laws/Generator.lean: `NextWord` reads `P`, `Q` and `index` and nothing else (rule R115), so states whose
generators agree draw the same words for ever (R170). -/

namespace Sys2Proof.Machine

theorem SameGen.refl (s : State) : SameGen s s := ⟨rfl, rfl, rfl⟩

theorem SameGen.symm {s t : State} (hst : SameGen s t) : SameGen t s :=
  ⟨hst.1.symm, hst.2.1.symm, hst.2.2.symm⟩

theorem SameGen.trans {s t u : State} (hst : SameGen s t) (htu : SameGen t u) : SameGen s u :=
  ⟨hst.1.trans htu.1, hst.2.1.trans htu.2.1, hst.2.2.trans htu.2.2⟩

/-- The same word and again the same generator. -/
theorem SameGen.nextWord {s t : State} (hst : SameGen s t) :
    (nextWord s).1 = (nextWord t).1 ∧ SameGen (nextWord s).2 (nextWord t).2 := by
  obtain ⟨hP, hQ, hi⟩ := hst
  unfold Machine.nextWord activeIsP
  rw [hP, hQ, hi]
  split
  · exact ⟨rfl, rfl, rfl, rfl⟩
  · exact ⟨rfl, rfl, rfl, rfl⟩

theorem SameGen.skip (n : Nat) {s t : State} (hst : SameGen s t) : SameGen (skip n s) (skip n t) := by
  induction n generalizing s t with
  | zero => exact hst
  | succ n ih => exact ih hst.nextWord.2

theorem SameGen.wordAt (n : Nat) {s t : State} (hst : SameGen s t) : wordAt n s = wordAt n t :=
  (hst.skip n).nextWord.1

/-- Updates that leave `P`, `Q` and `index` alone leave the generator alone. -/
theorem sameGen_of_fields {s t : State} (hP : s.P = t.P) (hQ : s.Q = t.Q) (hi : s.index = t.index) : SameGen s t :=
  ⟨hP, hQ, hi⟩

theorem wordAt_zero (s : State) : wordAt 0 s = (nextWord s).1 := rfl

theorem wordAt_succ (n : Nat) (s : State) : wordAt (n + 1) s = wordAt n (nextWord s).2 := rfl

theorem wordAt_skip (m n : Nat) (s : State) : wordAt n (skip m s) = wordAt (m + n) s := by
  rw [wordAt, wordAt, skip_add]

/-- A table word after a write. -/
theorem readTable_writeTable (t : Table) (j k : BitVec 10) (v : Word) :
    readTable (writeTable t j v) k = if j = k then v else readTable t k := by
  unfold readTable writeTable
  by_cases hjk : j = k
  · subst hjk; rw [Arr.get_set_same, if_pos rfl]
  · have hne : j.toFin ≠ k.toFin := fun hf => hjk (BitVec.eq_of_toFin_eq hf)
    rw [Arr.get_set_ne _ _ hne, if_neg hjk]

theorem table_ext {s t : Table} (hst : ∀ k, readTable s k = readTable t k) : s = t := by
  refine Arr.ext_get fun i => ?_
  have hi := hst (BitVec.ofFin i)
  exact hi

end Sys2Proof.Machine
end

