-- ==== Sys2Proof/Laws/Memory.lean ====
section
/-! SUPPORT. Laws/Memory.lean: read after write on `BUF`, and that every memory operation keeps the canonical form. -/

namespace Sys2Proof.Machine

theorem Memory.wfFrom_mono {m : Memory} : ∀ {lo lo' : Nat}, lo' ≤ lo → Memory.wfFrom lo m = true →
    Memory.wfFrom lo' m = true := by
  cases m with
  | nil => intros; rfl
  | cons e m =>
    obtain ⟨b, w⟩ := e
    intro lo lo' hle hm
    simp only [Memory.wfFrom, Bool.and_eq_true, decide_eq_true_eq] at hm ⊢
    exact ⟨⟨⟨by omega, hm.1.1.2⟩, hm.1.2⟩, hm.2⟩

theorem Memory.read_below {m : Memory} : ∀ {lo a : Nat}, Memory.wfFrom lo m = true → a < lo →
    Memory.read m a = Memory.unlisted := by
  induction m with
  | nil => intros; rfl
  | cons e m ih =>
    obtain ⟨b, w⟩ := e
    intro lo a hm ha
    simp only [Memory.wfFrom, Bool.and_eq_true, decide_eq_true_eq] at hm
    have hne : a ≠ b := by omega
    simp only [Memory.read, hne, if_false]
    exact ih hm.2 (by omega)

theorem Memory.wfFrom_write {m : Memory} : ∀ {lo a : Nat} (v : Byte), Memory.wfFrom lo m = true → lo ≤ a →
    a < Config.BUF_SIZE → Memory.wfFrom lo (Memory.write m a v) = true := by
  induction m with
  | nil =>
    intro lo a v _ hlo ha
    by_cases hv : v = Memory.unlisted <;> simp [Memory.write, Memory.wfFrom, hv, hlo, ha]
  | cons e m ih =>
    obtain ⟨b, w⟩ := e
    intro lo a v hm hlo ha
    have hm' := hm
    simp only [Memory.wfFrom, Bool.and_eq_true, decide_eq_true_eq] at hm'
    obtain ⟨⟨⟨h1, h2⟩, h3⟩, h4⟩ := hm'
    rcases Nat.lt_trichotomy a b with hab | hab | hab
    · by_cases hv : v = Memory.unlisted
      · simp [Memory.write, hab, hv, hm]
      · have hb : a + 1 ≤ b := hab
        simp [Memory.write, hab, hv, Memory.wfFrom, hlo, ha, hb, h2, h3, h4]
    · subst hab
      by_cases hv : v = Memory.unlisted
      · simpa [Memory.write, hv] using Memory.wfFrom_mono (by omega : lo ≤ a + 1) h4
      · simp [Memory.write, hv, Memory.wfFrom, hlo, ha, h4]
    · have hn : ¬ a < b := by omega
      have hne : a ≠ b := by omega
      have hrec := ih v h4 (by omega : b + 1 ≤ a) ha
      simp [Memory.write, hn, hne, Memory.wfFrom, h1, h2, h3, hrec]

/-- A store keeps the canonical form. -/
theorem Memory.wf_write {m : Memory} {a : Nat} (v : Byte) (hm : Memory.wf m = true) (ha : a < Config.BUF_SIZE) :
    Memory.wf (Memory.write m a v) = true :=
  Memory.wfFrom_write v hm (Nat.zero_le a) ha

theorem Memory.read_write_from {m : Memory} : ∀ {lo : Nat} (a : Nat) (v : Byte) (a' : Nat), Memory.wfFrom lo m = true →
    Memory.read (Memory.write m a v) a' = if a' = a then v else Memory.read m a' := by
  induction m with
  | nil =>
    intro lo a v a' _
    by_cases hv : v = Memory.unlisted <;> by_cases ha : a' = a <;> simp [Memory.write, Memory.read, hv, ha]
  | cons e m ih =>
    obtain ⟨b, w⟩ := e
    intro lo a v a' hm
    have hm' := hm
    simp only [Memory.wfFrom, Bool.and_eq_true, decide_eq_true_eq] at hm'
    obtain ⟨⟨⟨h1, h2⟩, h3⟩, h4⟩ := hm'
    rcases Nat.lt_trichotomy a b with hab | hab | hab
    · by_cases hv : v = Memory.unlisted
      · by_cases ha : a' = a
        · subst ha
          have hne : a' ≠ b := by omega
          simp [Memory.write, hab, hv, Memory.read, hne, Memory.read_below h4 (by omega : a' < b + 1)]
        · simp [Memory.write, hab, hv, ha]
      · by_cases ha : a' = a <;> simp [Memory.write, hab, hv, Memory.read, ha]
    · subst hab
      by_cases hv : v = Memory.unlisted
      · by_cases ha : a' = a
        · subst ha
          simp [Memory.write, hv, Memory.read_below h4 (by omega : a' < a' + 1)]
        · simp [Memory.write, hv, Memory.read, ha]
      · by_cases ha : a' = a <;> simp [Memory.write, hv, Memory.read, ha]
    · have hn : ¬ a < b := by omega
      have hne : a ≠ b := by omega
      by_cases hb : a' = b
      · have hba : ¬ b = a := by omega
        simp [Memory.write, hn, hne, Memory.read, hb, hba]
      · simp only [Memory.write, hn, hne, if_false, Memory.read, hb]
        exact ih a v a' h4

/-- Read after write: the byte written at its address, every other byte as before. -/
theorem Memory.read_write {m : Memory} (hm : Memory.wf m = true) (a : Nat) (v : Byte) (a' : Nat) :
    Memory.read (Memory.write m a v) a' = if a' = a then v else Memory.read m a' :=
  Memory.read_write_from a v a' hm

theorem Memory.ext_from {m : Memory} : ∀ {m' : Memory} {lo : Nat}, Memory.wfFrom lo m = true → Memory.wfFrom lo m' = true →
    (∀ a, Memory.read m a = Memory.read m' a) → m = m' := by
  induction m with
  | nil =>
    intro m' lo _ hm' hr
    cases m' with
    | nil => rfl
    | cons e m' =>
      obtain ⟨b, w⟩ := e
      simp only [Memory.wfFrom, Bool.and_eq_true, decide_eq_true_eq] at hm'
      have hb := hr b
      simp only [Memory.read, if_true] at hb
      exact absurd hb.symm hm'.1.2
  | cons e m ih =>
    obtain ⟨b, w⟩ := e
    intro m' lo hm hm' hr
    simp only [Memory.wfFrom, Bool.and_eq_true, decide_eq_true_eq] at hm
    obtain ⟨⟨⟨h1, h2⟩, h3⟩, h4⟩ := hm
    cases m' with
    | nil =>
      have hb := hr b
      simp only [Memory.read, if_true] at hb
      exact absurd hb h3
    | cons e' m' =>
      obtain ⟨b', w'⟩ := e'
      simp only [Memory.wfFrom, Bool.and_eq_true, decide_eq_true_eq] at hm'
      obtain ⟨⟨⟨g1, g2⟩, g3⟩, g4⟩ := hm'
      have hbb : b = b' := by
        rcases Nat.lt_trichotomy b b' with hlt | heq | hlt
        · have hb := hr b
          have hne : b ≠ b' := by omega
          simp only [Memory.read, if_true, hne, if_false] at hb
          rw [Memory.read_below g4 (by omega)] at hb
          exact absurd hb h3
        · exact heq
        · have hb := hr b'
          have hne : b' ≠ b := by omega
          simp only [Memory.read, if_true, hne, if_false] at hb
          rw [Memory.read_below h4 (by omega)] at hb
          exact absurd hb.symm g3
      subst hbb
      have hw : w = w' := by
        have hb := hr b
        simpa only [Memory.read, if_true] using hb
      subst hw
      congr 1
      refine ih h4 g4 fun a => ?_
      by_cases hab : a = b
      · subst hab
        rw [Memory.read_below h4 (by omega), Memory.read_below g4 (by omega)]
      · have ha := hr a
        simpa only [Memory.read, hab, if_false] using ha

/-- Two memories in canonical form that read alike at every address are equal data. -/
theorem Memory.ext_read {m m' : Memory} (hm : Memory.wf m = true) (hm' : Memory.wf m' = true)
    (hr : ∀ a, Memory.read m a = Memory.read m' a) : m = m' :=
  Memory.ext_from hm hm' hr

/-- A byte at or past the top of the space reads as unlisted. -/
theorem Memory.read_past_top {m : Memory} : ∀ {lo a : Nat}, Memory.wfFrom lo m = true → Config.BUF_SIZE ≤ a →
    Memory.read m a = Memory.unlisted := by
  induction m with
  | nil => intros; rfl
  | cons e m ih =>
    obtain ⟨b, w⟩ := e
    intro lo a hm ha
    simp only [Memory.wfFrom, Bool.and_eq_true, decide_eq_true_eq] at hm
    have hne : a ≠ b := by omega
    simp only [Memory.read, hne, if_false]
    exact ih hm.2 ha

theorem Memory.write_read_from {m : Memory} : ∀ {lo : Nat} (a : Nat), Memory.wfFrom lo m = true →
    Memory.write m a (Memory.read m a) = m := by
  induction m with
  | nil => intros; rfl
  | cons e m ih =>
    obtain ⟨b, w⟩ := e
    intro lo a hm
    simp only [Memory.wfFrom, Bool.and_eq_true, decide_eq_true_eq] at hm
    obtain ⟨⟨⟨_, _⟩, h3⟩, h4⟩ := hm
    rcases Nat.lt_trichotomy a b with hab | hab | hab
    · have hne : a ≠ b := by omega
      simp [Memory.write, Memory.read, hab, hne, Memory.read_below h4 (by omega : a < b + 1)]
    · subst hab
      simp [Memory.write, Memory.read, h3]
    · have hn : ¬ a < b := by omega
      have hne : a ≠ b := by omega
      simp [Memory.write, Memory.read, hn, hne, ih a h4]

/-- Storing what a byte already reads as changes nothing. -/
theorem Memory.write_read {m : Memory} (hm : Memory.wf m = true) (a : Nat) :
    Memory.write m a (Memory.read m a) = m :=
  Memory.write_read_from a hm

theorem wf_xorByteAt {m : Memory} {a : Nat} (k : Byte) (hm : Memory.wf m = true) (ha : a < Config.BUF_SIZE) :
    Memory.wf (xorByteAt m a k) = true :=
  Memory.wf_write _ hm ha

theorem read_xorByteAt {m : Memory} (hm : Memory.wf m = true) (a : Nat) (k : Byte) (a' : Nat) :
    Memory.read (xorByteAt m a k) a' = if a' = a then Memory.read m a ^^^ k else Memory.read m a' :=
  Memory.read_write hm a _ a'

/-- Everything `xorRun` does: the canonical form stays, byte `k` of the run is XORed, every other byte stays. -/
theorem xorRun_spec : ∀ (ks : List Byte) {m : Memory} {a : Nat}, Memory.wf m = true →
    a + ks.length ≤ Config.BUF_SIZE →
    Memory.wf (xorRun m a ks) = true ∧
    ∀ a', Memory.read (xorRun m a ks) a' =
      if a ≤ a' ∧ a' < a + ks.length then Memory.read m a' ^^^ ks.getD (a' - a) 0 else Memory.read m a' := by
  intro ks
  induction ks with
  | nil =>
    intro m a hm _
    refine ⟨hm, fun a' => ?_⟩
    have hno : ¬ (a ≤ a' ∧ a' < a + ([] : List Byte).length) := by simp
    rw [if_neg hno]
    rfl
  | cons k ks ih =>
    intro m a hm hlen
    simp only [List.length_cons] at hlen ⊢
    have htop : a < Config.BUF_SIZE := by omega
    obtain ⟨hwf, hread⟩ := ih (wf_xorByteAt k hm htop) (by omega : a + 1 + ks.length ≤ Config.BUF_SIZE)
    refine ⟨hwf, fun a' => ?_⟩
    rw [xorRun, hread, read_xorByteAt hm]
    by_cases ha : a' = a
    · subst ha
      have h1 : ¬ (a' + 1 ≤ a' ∧ a' < a' + 1 + ks.length) := by omega
      have h2 : a' ≤ a' ∧ a' < a' + (ks.length + 1) := by omega
      rw [if_neg h1, if_pos h2, if_pos rfl]
      simp
    · by_cases hin : a + 1 ≤ a' ∧ a' < a + 1 + ks.length
      · have h2 : a ≤ a' ∧ a' < a + (ks.length + 1) := by omega
        have h3 : a' - a = (a' - (a + 1)) + 1 := by omega
        rw [if_pos hin, if_pos h2, if_neg ha, h3, List.getD_cons_succ]
      · have h2 : ¬ (a ≤ a' ∧ a' < a + (ks.length + 1)) := by omega
        rw [if_neg hin, if_neg h2, if_neg ha]

/-- Everything `copyPrefix` does: the canonical form stays, the first `n` bytes from `a` on are those of `done`, every
other byte stays. -/
theorem copyPrefix_spec (done : Memory) : ∀ (n : Nat) {m : Memory} {a : Nat}, Memory.wf m = true →
    a + n ≤ Config.BUF_SIZE →
    Memory.wf (copyPrefix done m a n) = true ∧
    ∀ a', Memory.read (copyPrefix done m a n) a' =
      if a ≤ a' ∧ a' < a + n then Memory.read done a' else Memory.read m a' := by
  intro n
  induction n with
  | zero =>
    intro m a hm _
    refine ⟨hm, fun a' => ?_⟩
    have hno : ¬ (a ≤ a' ∧ a' < a + 0) := by omega
    rw [if_neg hno]
    rfl
  | succ n ih =>
    intro m a hm hlen
    have htop : a < Config.BUF_SIZE := by omega
    obtain ⟨hwf, hread⟩ := ih (Memory.wf_write (Memory.read done a) hm htop)
      (by omega : a + 1 + n ≤ Config.BUF_SIZE)
    refine ⟨hwf, fun a' => ?_⟩
    rw [copyPrefix, hread, Memory.read_write hm]
    by_cases ha : a' = a
    · subst ha
      have h1 : ¬ (a' + 1 ≤ a' ∧ a' < a' + 1 + n) := by omega
      have h2 : a' ≤ a' ∧ a' < a' + (n + 1) := by omega
      rw [if_neg h1, if_pos h2, if_pos rfl]
    · by_cases hin : a + 1 ≤ a' ∧ a' < a + 1 + n
      · have h2 : a ≤ a' ∧ a' < a + (n + 1) := by omega
        rw [if_pos hin, if_pos h2]
      · have h2 : ¬ (a ≤ a' ∧ a' < a + (n + 1)) := by omega
        rw [if_neg hin, if_neg h2, if_neg ha]

/-- Copying a memory's own bytes changes nothing, wherever the range lies. -/
theorem copyPrefix_self {m : Memory} (hm : Memory.wf m = true) : ∀ n a, copyPrefix m m a n = m := by
  intro n
  induction n with
  | zero => intro a; rfl
  | succ n ih => intro a; rw [copyPrefix, Memory.write_read hm, ih]

/-- Nothing is listed in the memory after reset, so its form is canonical. -/
theorem wf_reset : Memory.wf State.reset.buf = true := rfl

end Sys2Proof.Machine
end

