-- ==== Sys2Proof/Laws/Apply.lean ====
section
/-! SUPPORT. Laws/Apply.lean: what each phase of `APPLY` does (43_apply.md), once per phase: the bytes it XORs into `BUF`
as one run, what it leaves in the carry, and how many words it draws. -/

namespace Sys2Proof.Machine

/-! ## Runs of bytes -/

theorem xorRun_append (ks ls : List Byte) : ∀ (m : Memory) (a : Nat),
    xorRun m a (ks ++ ls) = xorRun (xorRun m a ks) (a + ks.length) ls := by
  induction ks with
  | nil => intro m a; rfl
  | cons k ks ih =>
    intro m a
    rw [List.cons_append, xorRun, ih, xorRun, List.length_cons]
    congr 1
    omega

theorem listFrom_append {α : Type} (f : Nat → α) (m n : Nat) : ∀ k,
    listFrom f k (m + n) = listFrom f k m ++ listFrom f (k + m) n := by
  induction m with
  | zero => intro k; rw [Nat.zero_add]; rfl
  | succ m ih =>
    intro k
    have h1 : m + 1 + n = (m + n) + 1 := by omega
    have h2 : k + (m + 1) = k + 1 + m := by omega
    rw [h1, listFrom, ih, listFrom, h2]
    rfl

theorem listFrom_congr {α : Type} {f f' : Nat → α} {n : Nat} : ∀ {k k' : Nat},
    (∀ i, i < n → f (k + i) = f' (k' + i)) → listFrom f k n = listFrom f' k' n := by
  induction n with
  | zero => intros; rfl
  | succ n ih =>
    intro k k' hff
    have h0 := hff 0 (by omega)
    have hrec : listFrom f (k + 1) n = listFrom f' (k' + 1) n := ih fun i hi => by
      have h1 := hff (i + 1) (by omega)
      have e1 : k + 1 + i = k + (i + 1) := by omega
      have e2 : k' + 1 + i = k' + (i + 1) := by omega
      rw [e1, e2, h1]
    rw [listFrom, listFrom, hrec]
    exact congrArg (· :: _) h0

theorem getD_listFrom {α : Type} (f : Nat → α) (d : α) (n : Nat) : ∀ (k i : Nat), i < n →
    (listFrom f k n).getD i d = f (k + i) := by
  induction n with
  | zero => intro k i hi; omega
  | succ n ih =>
    intro k i hi
    cases i with
    | zero => rfl
    | succ i =>
      rw [listFrom, List.getD_cons_succ, ih _ _ (by omega)]
      congr 1
      omega

/-! ## Words and the carry -/

theorem wordBytes_eq_listFrom (w : Word) : wordBytes w = listFrom (fun t => byteOf t w) 0 4 := rfl

theorem take_wordBytes {r : Nat} (w : Word) (hr : r ≤ 4) :
    (wordBytes w).take r = listFrom (fun t => byteOf t w) 0 r := by
  have hcases : r = 0 ∨ r = 1 ∨ r = 2 ∨ r = 3 ∨ r = 4 := by omega
  rcases hcases with rfl | rfl | rfl | rfl | rfl <;> rfl

theorem carryAt_clearAt (c : Carry) {p q : Nat} (hp : p < 3) (hq : q < 3) :
    carryAt (clearAt c p) q = if p = q then 0 else carryAt c q := by
  unfold carryAt clearAt
  rw [Arr.get_set]
  have hiff : (Fin.ofNat 3 p = Fin.ofNat 3 q) ↔ p = q := by
    rw [Fin.ext_iff]
    simp only [Fin.ofNat, Nat.mod_eq_of_lt hp, Nat.mod_eq_of_lt hq]
  simp only [hiff]

@[simp] theorem carryAt_fill (v : Byte) (p : Nat) : carryAt (Arr.fill 3 v) p = v := by
  unfold carryAt; rw [Arr.get_fill]

theorem carryAt_keepTail (r : Nat) (w : Word) (c : Carry) {p : Nat} (hp : p < 3) :
    carryAt (keepTail r w c) p = if r ≤ p + 1 then byteOf (p + 1) w else carryAt c p := by
  have hcases : p = 0 ∨ p = 1 ∨ p = 2 := by omega
  rcases hcases with rfl | rfl | rfl <;> rfl

theorem carry_ext {c d : Carry} (hcd : ∀ p, p < 3 → carryAt c p = carryAt d p) : c = d := by
  refine Arr.ext_get fun i => ?_
  have hi := hcd i.val i.isLt
  have hof : Fin.ofNat 3 i.val = i := by
    apply Fin.ext
    simp only [Fin.ofNat, Nat.mod_eq_of_lt i.isLt]
  simpa only [carryAt, hof] using hi

theorem get_eq_carryAt (c : Carry) (p : Fin 3) : c.get p = carryAt c p.val := by
  have hof : Fin.ofNat 3 p.val = p := by
    apply Fin.ext
    simp only [Fin.ofNat, Nat.mod_eq_of_lt p.isLt]
  rw [carryAt, hof]

/-! ## Drain -/

/-- The bytes `n` drain steps XOR: the carry from position `3 − c + o` up (R133). -/
theorem drain_buf (addr c n o : Nat) (s : State) (hn : o + n ≤ c) (hc : c ≤ 3) :
    (drain addr c n o s).buf = xorRun s.buf (addr + o) (listFrom (carryAt s.pendingBytes) (3 - c + o) n) := by
  induction n generalizing o s with
  | zero => rfl
  | succ n ih =>
    rw [drain, ih _ _ (by omega), listFrom, xorRun, drainByte_buf, drainByte_pendingBytes]
    have e1 : addr + (o + 1) = addr + o + 1 := by omega
    rw [e1]
    congr 1
    refine listFrom_congr fun i hi => ?_
    have e2 : 3 - c + (o + 1) + i = 3 - c + o + 1 + i := by omega
    have hne : 3 - c + o ≠ 3 - c + o + 1 + i := by omega
    rw [e2, carryAt_clearAt _ (by omega) (by omega), if_neg hne]

/-- Drained positions are zero, the others stay (R134). -/
theorem drain_carry (addr c n o : Nat) (s : State) (hn : o + n ≤ c) (hc : c ≤ 3) {p : Nat} (hp : p < 3) :
    carryAt (drain addr c n o s).pendingBytes p =
      if 3 - c + o ≤ p ∧ p < 3 - c + o + n then 0 else carryAt s.pendingBytes p := by
  induction n generalizing o s with
  | zero =>
    have hno : ¬ (3 - c + o ≤ p ∧ p < 3 - c + o + 0) := by omega
    rw [if_neg hno]
    rfl
  | succ n ih =>
    rw [drain, ih _ _ (by omega), drainByte_pendingBytes, carryAt_clearAt _ (by omega) hp]
    by_cases hhead : 3 - c + o = p
    · have h1 : ¬ (3 - c + (o + 1) ≤ p ∧ p < 3 - c + (o + 1) + n) := by omega
      have h2 : 3 - c + o ≤ p ∧ p < 3 - c + o + (n + 1) := by omega
      rw [if_neg h1, if_pos hhead, if_pos h2]
    · by_cases hin : 3 - c + (o + 1) ≤ p ∧ p < 3 - c + (o + 1) + n
      · have h2 : 3 - c + o ≤ p ∧ p < 3 - c + o + (n + 1) := by omega
        rw [if_pos hin, if_pos h2]
      · have h2 : ¬ (3 - c + o ≤ p ∧ p < 3 - c + o + (n + 1)) := by omega
        rw [if_neg hin, if_neg h2, if_neg hhead]

theorem drain_sameGen (addr c n o : Nat) (s : State) : SameGen (drain addr c n o s) s :=
  ⟨drain_P .., drain_Q .., drain_index ..⟩

/-! ## Bulk -/

theorem xorWord_sameGen (a r : Nat) (s : State) : SameGen (xorWord a r s) (nextWord s).2 :=
  ⟨xorWord_P .., xorWord_Q .., by rw [xorWord_index, nextWord_index]⟩

/-- `m` groups draw `m` words. -/
theorem bulk_sameGen (addr m o : Nat) (s : State) : SameGen (bulk addr m o s) (skip m s) := by
  induction m generalizing o s with
  | zero => exact SameGen.refl s
  | succ m ih => exact (ih (o + 4) _).trans ((xorWord_sameGen (addr + o) 4 s).skip m)

/-- The bytes `m` groups XOR: the first `4 * m` bytes of the words to come, in order (R136). -/
theorem bulk_buf (addr m o : Nat) (s : State) :
    (bulk addr m o s).buf =
      xorRun s.buf (addr + o) (listFrom (fun k => byteOf (k % 4) (wordAt (k / 4) s)) 0 (4 * m)) := by
  induction m generalizing o s with
  | zero => rfl
  | succ m ih =>
    have e1 : 4 * (m + 1) = 4 + 4 * m := by omega
    have e2 : addr + (o + 4) = addr + o + 4 := by omega
    have hhead : listFrom (fun k => byteOf (k % 4) (wordAt (k / 4) s)) 0 4 = (wordBytes (nextWord s).1).take 4 := rfl
    have htail : listFrom (fun k => byteOf (k % 4) (wordAt (k / 4) s)) (0 + 4) (4 * m) =
        listFrom (fun k => byteOf (k % 4) (wordAt (k / 4) (xorWord (addr + o) 4 s))) 0 (4 * m) := by
      refine listFrom_congr fun i _ => ?_
      have e3 : (0 + 4 + i) % 4 = (0 + i) % 4 := by omega
      have e4 : (0 + 4 + i) / 4 = (0 + i) / 4 + 1 := by omega
      simp only [e3, e4]
      rw [wordAt_succ, ← (xorWord_sameGen (addr + o) 4 s).wordAt]
    rw [bulk, ih, xorWord_buf, e1, listFrom_append, xorRun_append, hhead, htail, e2]
    rfl

/-! ## The three phases together -/

theorem pendingCount_le (s : State) : s.pendingCount.toNat ≤ 3 := by
  have hlt := s.pendingCount.isLt
  omega

theorem drainPhase_eq (addr len : Nat) (s : State) :
    (if carryPresent s then drain addr s.pendingCount.toNat (min s.pendingCount.toNat len) 0 s else s) =
      drain addr s.pendingCount.toNat (min s.pendingCount.toNat len) 0 s := by
  unfold carryPresent
  split_ifs with h
  · rfl
  · have h0 : s.pendingCount.toNat = 0 := by simpa using h
    rw [h0, Nat.zero_min]; rfl

/-- A call that the carry serves is its drain and the new count (R135). -/
theorem applyStream_early {addr len : Nat} {s : State} (h : len ≤ s.pendingCount.toNat) :
    applyStream addr len s =
      withCount (BitVec.ofNat 2 (s.pendingCount.toNat - len)) (drain addr s.pendingCount.toNat len 0 s) := by
  unfold applyStream
  simp only
  rw [drainPhase_eq, if_pos h, Nat.min_eq_right h]

/-- The state of a longer call before its tail: the whole carry drained, then all whole groups of four (R136, R137). -/
abbrev beforeTail (addr len : Nat) (s : State) : State :=
  bulk addr ((len - s.pendingCount.toNat) / 4) s.pendingCount.toNat
    (withCount 0 (drain addr s.pendingCount.toNat s.pendingCount.toNat 0 s))

/-- A longer call is drain, bulk and tail (R133 to R140). -/
theorem applyStream_late {addr len : Nat} {s : State} (h : s.pendingCount.toNat < len) :
    applyStream addr len s =
      applyTail addr ((len - s.pendingCount.toNat) % 4)
        (s.pendingCount.toNat + 4 * ((len - s.pendingCount.toNat) / 4)) (beforeTail addr len s) := by
  unfold applyStream
  simp only
  have hn : ¬ len ≤ s.pendingCount.toNat := by omega
  rw [drainPhase_eq, if_neg hn, Nat.min_eq_left (by omega)]

theorem sameGen_withCount (n : BitVec 2) (s : State) : SameGen (withCount n s) s := ⟨by simp, by simp, by simp⟩

theorem sameGen_storeCarry (r : Nat) (w : Word) (s : State) : SameGen (storeCarry r w s) s :=
  ⟨by simp, by simp, by simp⟩

theorem sameGen_clearCarry (s : State) : SameGen (clearCarry s) s := ⟨by simp, by simp, by simp⟩

theorem sameGen_withResponse (r : Option Response) (s : State) : SameGen (withResponse r s) s :=
  ⟨by simp, by simp, by simp⟩

theorem beforeTail_sameGen (addr len : Nat) (s : State) :
    SameGen (beforeTail addr len s) (skip ((len - s.pendingCount.toNat) / 4) s) :=
  (bulk_sameGen ..).trans (((sameGen_withCount ..).trans (drain_sameGen ..)).skip _)

theorem beforeTail_carryAt (addr len : Nat) (s : State) {p : Nat} (hp : p < 3) :
    carryAt (beforeTail addr len s).pendingBytes p =
      if 3 - s.pendingCount.toNat ≤ p then 0 else carryAt s.pendingBytes p := by
  have hc := pendingCount_le s
  unfold beforeTail
  rw [bulk_pendingBytes, withCount_pendingBytes, drain_carry _ _ _ _ _ (by omega) hc hp]
  have e : (3 - s.pendingCount.toNat + 0 ≤ p ∧ p < 3 - s.pendingCount.toNat + 0 + s.pendingCount.toNat) ↔ 3 - s.pendingCount.toNat ≤ p := by omega
  simp only [e]

theorem beforeTail_buf (addr len : Nat) (s : State) :
    (beforeTail addr len s).buf = xorRun s.buf addr
      (listFrom (streamByte s) 0 (s.pendingCount.toNat + 4 * ((len - s.pendingCount.toNat) / 4))) := by
  have hc := pendingCount_le s
  unfold beforeTail
  rw [bulk_buf, withCount_buf, drain_buf _ _ _ _ _ (by omega) hc, listFrom_append, xorRun_append]
  congr 1
  · congr 1
    refine listFrom_congr fun i hi => ?_
    have hin : 0 + i < s.pendingCount.toNat := by omega
    simp only [streamByte, hin, if_true]
    congr 1; omega
  · rw [length_listFrom]
  · refine listFrom_congr fun i hi => ?_
    have h1 : ¬ 0 + s.pendingCount.toNat + i < s.pendingCount.toNat := by omega
    have h2 : 0 + s.pendingCount.toNat + i - s.pendingCount.toNat = 0 + i := by omega
    simp only [streamByte, h1, if_false, h2]
    rw [(((sameGen_withCount _ _).trans (drain_sameGen _ _ _ _ _))).wordAt]

/-- The generator after the three phases (R141). -/
theorem applyStream_sameGen (addr len : Nat) (s : State) :
    SameGen (applyStream addr len s) (skip (wordsDrawn s.pendingCount.toNat len) s) := by
  unfold wordsDrawn
  split_ifs with h
  · rw [applyStream_early h]; exact (sameGen_withCount ..).trans (drain_sameGen ..)
  · rw [applyStream_late (by omega)]
    unfold applyTail
    split_ifs with hr
    · have e : (len - s.pendingCount.toNat + 3) / 4 = (len - s.pendingCount.toNat) / 4 := by omega
      rw [e]
      exact (sameGen_clearCarry _).trans (beforeTail_sameGen ..)
    · have e : (len - s.pendingCount.toNat + 3) / 4 = (len - s.pendingCount.toNat) / 4 + 1 := by omega
      rw [e, skip_succ_last]
      exact (sameGen_storeCarry ..).trans ((xorWord_sameGen ..).trans (beforeTail_sameGen addr len s).nextWord.2)

/-- `pendingCount` after the three phases (R141). -/
theorem applyStream_pendingCount (addr len : Nat) (s : State) :
    (applyStream addr len s).pendingCount = BitVec.ofNat 2 (countAfter s.pendingCount.toNat len) := by
  unfold countAfter
  split_ifs with h
  · rw [applyStream_early h]; simp
  · rw [applyStream_late (by omega)]
    unfold applyTail
    split_ifs with hr
    · simp [hr]
    · rw [storeCarry_pendingCount]; congr 1; omega

theorem countAfter_lt (s : State) (len : Nat) : countAfter s.pendingCount.toNat len < 4 := by
  have hc := pendingCount_le s
  unfold countAfter; split_ifs <;> omega

theorem applyStream_count_toNat (addr len : Nat) (s : State) :
    (applyStream addr len s).pendingCount.toNat = countAfter s.pendingCount.toNat len := by
  rw [applyStream_pendingCount, BitVec.toNat_ofNat, Nat.mod_eq_of_lt (countAfter_lt s len)]

/-- The carry after the three phases: its valid positions hold the stream from byte `len` on; below them stands what was
there, zeroed where it was drained or cleared (R134, R139, R140). -/
theorem applyStream_carryAt (addr len : Nat) (s : State) {p : Nat} (hp : p < 3) :
    carryAt (applyStream addr len s).pendingBytes p =
      if 3 - countAfter s.pendingCount.toNat len ≤ p then
        streamByte s (len + (p - (3 - countAfter s.pendingCount.toNat len)))
      else if s.pendingCount.toNat < len ∧ (len - s.pendingCount.toNat) % 4 = 0 then 0
      else if 3 - s.pendingCount.toNat ≤ p then 0 else carryAt s.pendingBytes p := by
  have hc := pendingCount_le s
  by_cases h : len ≤ s.pendingCount.toNat
  · rw [applyStream_early h, withCount_pendingBytes, drain_carry _ _ _ _ _ (by omega) hc hp]
    have hca : countAfter s.pendingCount.toNat len = s.pendingCount.toNat - len := by simp [countAfter, h]
    rw [hca]
    have hn : ¬ (s.pendingCount.toNat < len ∧ (len - s.pendingCount.toNat) % 4 = 0) := by omega
    rw [if_neg hn]
    by_cases h1 : 3 - (s.pendingCount.toNat - len) ≤ p
    · have h2 : ¬ (3 - s.pendingCount.toNat + 0 ≤ p ∧ p < 3 - s.pendingCount.toNat + 0 + len) := by omega
      have h3 : len + (p - (3 - (s.pendingCount.toNat - len))) < s.pendingCount.toNat := by omega
      rw [if_neg h2, if_pos h1]
      simp only [streamByte, h3, if_true]
      congr 1; omega
    · rw [if_neg h1]
      have e : (3 - s.pendingCount.toNat + 0 ≤ p ∧ p < 3 - s.pendingCount.toNat + 0 + len) ↔ 3 - s.pendingCount.toNat ≤ p := by omega
      simp only [e]
  · rw [applyStream_late (by omega)]
    have hca : countAfter s.pendingCount.toNat len = (4 - (len - s.pendingCount.toNat) % 4) % 4 := by simp [countAfter, h]
    rw [hca]
    unfold applyTail
    split_ifs with hr h1 h2 h3 h4 h5 h6
    all_goals try omega
    · rw [clearCarry_pendingBytes, carryAt_fill]
    all_goals rw [storeCarry_pendingBytes, carryAt_keepTail _ _ _ hp]
    · rw [if_pos (by omega)]
      have h3 : ¬ len + (p - (3 - (4 - (len - s.pendingCount.toNat) % 4) % 4)) < s.pendingCount.toNat := by omega
      simp only [streamByte, h3, if_false]
      have e1 : (len + (p - (3 - (4 - (len - s.pendingCount.toNat) % 4) % 4)) - s.pendingCount.toNat) % 4 = p + 1 := by omega
      have e2 : (len + (p - (3 - (4 - (len - s.pendingCount.toNat) % 4) % 4)) - s.pendingCount.toNat) / 4 = (len - s.pendingCount.toNat) / 4 := by omega
      rw [e1, e2, (beforeTail_sameGen addr len s).nextWord.1]; rfl
    all_goals rw [if_neg (by omega), xorWord_pendingBytes]
    all_goals (have := beforeTail_carryAt addr len s hp; unfold beforeTail at this; rw [this]; simp_all)

/-- `BUF` after the three phases: the first `len` stream bytes XORed in from `addr` up, as one run (R130). -/
theorem applyStream_buf (addr len : Nat) (s : State) :
    (applyStream addr len s).buf = xorRun s.buf addr (listFrom (streamByte s) 0 len) := by
  have hc := pendingCount_le s
  by_cases h : len ≤ s.pendingCount.toNat
  · rw [applyStream_early h, withCount_buf, drain_buf _ _ _ _ _ (by omega) hc]
    congr 1
    refine listFrom_congr fun i hi => ?_
    have hin : 0 + i < s.pendingCount.toNat := by omega
    simp only [streamByte, hin, if_true]
    congr 1; omega
  · rw [applyStream_late (by omega)]
    unfold applyTail
    split_ifs with hr
    · have := beforeTail_buf addr len s
      unfold beforeTail at this
      rw [clearCarry_buf, this]
      have e : s.pendingCount.toNat + 4 * ((len - s.pendingCount.toNat) / 4) = len := by omega
      rw [e]
    · have := beforeTail_buf addr len s
      unfold beforeTail at this
      rw [storeCarry_buf, xorWord_buf, this]
      have e : len = (s.pendingCount.toNat + 4 * ((len - s.pendingCount.toNat) / 4)) + (len - s.pendingCount.toNat) % 4 := by omega
      conv_rhs => rw [e, listFrom_append, xorRun_append, length_listFrom]
      rw [take_wordBytes _ (by omega)]
      congr 1
      refine listFrom_congr fun i hi => ?_
      have h1 : ¬ 0 + (s.pendingCount.toNat + 4 * ((len - s.pendingCount.toNat) / 4)) + i < s.pendingCount.toNat := by omega
      simp only [streamByte, h1, if_false]
      have e1 : (0 + (s.pendingCount.toNat + 4 * ((len - s.pendingCount.toNat) / 4)) + i - s.pendingCount.toNat) % 4 = 0 + i := by omega
      have e2 : (0 + (s.pendingCount.toNat + 4 * ((len - s.pendingCount.toNat) / 4)) + i - s.pendingCount.toNat) / 4 = (len - s.pendingCount.toNat) / 4 := by omega
      have := (beforeTail_sameGen addr len s).nextWord.1
      unfold beforeTail at this
      rw [e1, e2, this]; rfl

end Sys2Proof.Machine
end

