-- ==== Sys2Proof/Laws/Exec.lean ====
section
/-! SUPPORT. Laws/Exec.lean: when each command answers a next state and which, and what a step can do, said once, so that
later proofs do not unfold the meanings. -/

namespace Sys2Proof.Machine

theorem Config.WARMUP_eq : Config.WARMUP = 4096 := by rw [Config.WARMUP]

theorem Config.SCRATCH_LEN_eq : Config.SCRATCH_LEN = 2560 := by rw [Config.SCRATCH_LEN]

/-! ## Ordinary memory -/

theorem touches_zero_len (k : RegionKind) (rs : List Region) (addr : Nat) : touches k rs addr 0 = false := by
  unfold touches Region.meets
  rw [List.any_eq_false]
  intro r _
  have hno : ¬ (max r.base addr < min (r.base + r.size) (addr + 0)) := by omega
  simp only [hno, decide_false, Bool.and_false, Bool.false_eq_true, not_false_eq_true]

/-- A part of an ordinary range is ordinary. -/
theorem touches_part {k : RegionKind} {rs : List Region} {a n a' n' : Nat} (ha : a ≤ a') (hn : a' + n' ≤ a + n)
    (ht : touches k rs a n = false) : touches k rs a' n' = false := by
  unfold touches Region.meets at *
  rw [List.any_eq_false] at *
  intro r hr hmem
  refine ht r hr ?_
  simp only [Bool.and_eq_true, decide_eq_true_eq] at hmem ⊢
  exact ⟨hmem.1, by omega⟩

theorem ordinaryRange_iff {s : State} {addr len : Nat} : ordinaryRange s addr len = true ↔
    touches .device s.platform addr len = false ∧ touches .hole s.platform addr len = false := by
  simp [ordinaryRange]

theorem ordinaryRange_part {s : State} {a n a' n' : Nat} (ha : a ≤ a') (hn : a' + n' ≤ a + n)
    (ho : ordinaryRange s a n = true) : ordinaryRange s a' n' = true := by
  rw [ordinaryRange_iff] at *
  exact ⟨touches_part ha hn ho.1, touches_part ha hn ho.2⟩

theorem ordinaryRange_zero_len (s : State) (addr : Nat) : ordinaryRange s addr 0 = true := by
  rw [ordinaryRange_iff]
  exact ⟨touches_zero_len .., touches_zero_len ..⟩

theorem ordinaryRange_congr {s t : State} (hst : s.platform = t.platform) (addr len : Nat) :
    ordinaryRange s addr len = ordinaryRange t addr len := by
  unfold ordinaryRange; rw [hst]

theorem onOrdinary_of_ordinary {s : State} {addr len : Nat} (ho : ordinaryRange s addr len = true)
    (k : Host.Outcome State Fault Refusal) : onOrdinary addr len s k = k := by
  rw [ordinaryRange_iff] at ho
  simp [onOrdinary, ho.1, ho.2]

/-- Going on means that the range was ordinary. -/
theorem onOrdinary_next {s t : State} {addr len : Nat} {k : Host.Outcome State Fault Refusal}
    (hk : onOrdinary addr len s k = .next t) : ordinaryRange s addr len = true ∧ k = .next t := by
  unfold onOrdinary at hk
  split at hk
  · cases hk
  · split at hk
    · cases hk
    · rename_i hd hh
      exact ⟨ordinaryRange_iff.mpr ⟨by simpa using hd, by simpa using hh⟩, hk⟩

/-! ## What each command answers -/

theorem isReady_iff {s : State} : isReady s = true ↔ s.ST = .READY := by simp [isReady]

theorem exec_init (key iv : Key) (s : State) :
    exec (.init key iv) s = .next (withResponse (some ⟨.OK, []⟩) (setReady (tableInit key iv s))) := rfl

theorem exec_initAt (key iv : Key) (offset : Nat) (s : State) :
    exec (.initAt key iv offset) s =
      .next (withResponse (some ⟨.OK, []⟩) (setReady (seek offset (tableInit key iv s)))) := rfl

theorem exec_release (s : State) :
    exec .release s = .next (withResponse (some ⟨.OK, []⟩) (wipeBlock s)) := rfl

theorem exec_nextw_ready {s : State} (hs : s.ST = .READY) :
    exec .nextw s = .next (withResponse (some ⟨.OK, wordBytes (nextWord s).1⟩) (nextWord s).2) := by
  simp [exec, execNextw, isReady, hs, respond]

theorem refuse_eq (c : Code) (s : State) : refuse c s = .next (withResponse (some ⟨c, []⟩) s) := rfl

theorem exec_nextw_empty {s : State} (hs : s.ST = .EMPTY) : exec .nextw s = refuse .ERR_NOT_INIT s := by
  simp [exec, execNextw, isReady, hs]

theorem exec_apply_empty {s : State} (hs : s.ST = .EMPTY) (addr len : Nat) :
    exec (.apply addr len) s = refuse .ERR_NOT_INIT s := by
  simp [exec, execApply, isReady, hs]

theorem exec_apply_range {s : State} (hs : s.ST = .READY) {addr len : Nat} (hr : Config.BUF_SIZE < addr + len) :
    exec (.apply addr len) s = refuse .ERR_RANGE s := by
  simp [exec, execApply, isReady, hs, hr]

theorem exec_apply_admitted {s : State} {addr len : Nat} (ha : Admitted s addr len) :
    exec (.apply addr len) s = .next (withResponse (some ⟨.OK, []⟩) (applyStream addr len s)) := by
  obtain ⟨hs, hr, ho⟩ := ha
  have hr' : ¬ Config.BUF_SIZE < addr + len := by omega
  simp [exec, execApply, isReady, hs, hr', onOrdinary_of_ordinary ho, respond]

/-- Everything `APPLY` can do when it answers a next state. -/
theorem exec_apply_next {s t : State} {addr len : Nat} (ht : exec (.apply addr len) s = .next t) :
    (s.ST = .EMPTY ∧ t = withResponse (some ⟨.ERR_NOT_INIT, []⟩) s) ∨
    (s.ST = .READY ∧ Config.BUF_SIZE < addr + len ∧ t = withResponse (some ⟨.ERR_RANGE, []⟩) s) ∨
    (Admitted s addr len ∧ t = withResponse (some ⟨.OK, []⟩) (applyStream addr len s)) := by
  cases hs : s.ST with
  | EMPTY =>
    rw [exec_apply_empty hs, refuse_eq] at ht
    exact Or.inl ⟨rfl, (Host.Outcome.next.inj ht).symm⟩
  | READY =>
    by_cases hr : Config.BUF_SIZE < addr + len
    · rw [exec_apply_range hs hr, refuse_eq] at ht
      exact Or.inr (Or.inl ⟨rfl, hr, (Host.Outcome.next.inj ht).symm⟩)
    · simp only [exec, execApply, isReady, hs, decide_true, if_true, hr, if_false, respond] at ht
      obtain ⟨ho, hk⟩ := onOrdinary_next ht
      exact Or.inr (Or.inr ⟨⟨hs, by omega, ho⟩, (Host.Outcome.next.inj hk).symm⟩)

/-- Everything `NEXTW` can do. -/
theorem exec_nextw_cases (s : State) :
    (s.ST = .EMPTY ∧ exec .nextw s = .next (withResponse (some ⟨.ERR_NOT_INIT, []⟩) s)) ∨
    (s.ST = .READY ∧
      exec .nextw s = .next (withResponse (some ⟨.OK, wordBytes (nextWord s).1⟩) (nextWord s).2)) := by
  cases hs : s.ST with
  | EMPTY => exact Or.inl ⟨rfl, exec_nextw_empty hs⟩
  | READY => exact Or.inr ⟨rfl, exec_nextw_ready hs⟩

/-! ## Packets and moves -/

theorem runPacket_ok {b : Packet} {i : Instr} (hb : decode b = .ok i) (s : State) : runPacket b s = exec i s := by
  simp [runPacket, hb]

theorem runPacket_error {b : Packet} {c : Code} (hb : decode b = .error c) (s : State) :
    runPacket b s = refuse c s := by
  simp [runPacket, hb]

/-- The state a move finds: it is taken from the host's moves, and the last response is delivered. -/
theorem taken_eq (rest : List HostMove) (s : State) :
    withInputs rest (withResponse none s) = { s with inputs := rest, response := none } := rfl

theorem step_idle {s : State} (hs : s.inputs = []) : step s = .next (withResponse none s) := by
  simp [step, hs, idle]

theorem step_move {s : State} {m : HostMove} {rest : List HostMove} (hs : s.inputs = m :: rest) :
    step s = runMove m (withInputs rest (withResponse none s)) := by
  simp [step, hs]

/-- Everything a step can do: idle, or one move of the host. -/
theorem step_cases {s t : State} (ht : step s = .next t) :
    (s.inputs = [] ∧ t = withResponse none s) ∨
    ∃ m rest, s.inputs = m :: rest ∧ runMove m (withInputs rest (withResponse none s)) = .next t := by
  cases hs : s.inputs with
  | nil =>
    rw [step_idle hs] at ht
    exact Or.inl ⟨rfl, (Host.Outcome.next.inj ht).symm⟩
  | cons m rest => exact Or.inr ⟨m, rest, rfl, by rw [← step_move hs]; exact ht⟩

theorem resetEvent_eq (s : State) : resetEvent s = .next (withResponse none (wipeBlock s)) := rfl

/-- Everything a reset in mid-command can do when it answers a next state: the block is wiped, and `BUF` is as it was or
the prefix of a finished `APPLY`. -/
theorem abandon_next {b : Packet} {k0 : Nat} {s u : State} (hu : abandon b k0 s = .next u) :
    (u = withResponse none (wipeBlock s) ∧ ∀ addr len, decode b ≠ .ok (.apply addr len)) ∨
    ∃ addr len t, decode b = .ok (.apply addr len) ∧ exec (.apply addr len) s = .next t ∧
      u = withResponse none (wipeBlock (withBuf (copyPrefix t.buf s.buf addr (min k0 len)) s)) := by
  unfold abandon at hu
  split at hu
  · rename_i addr len hb
    unfold abandonedApply at hu
    split at hu
    · rename_i t ht
      rw [resetEvent_eq] at hu
      exact Or.inr ⟨addr, len, t, hb, ht, (Host.Outcome.next.inj hu).symm⟩
    · cases hu
    · cases hu
  · rename_i i hi hb
    rw [resetEvent_eq] at hu
    refine Or.inl ⟨(Host.Outcome.next.inj hu).symm, fun addr len hc => ?_⟩
    rw [hb] at hc
    exact hi addr len (Except.ok.inj hc)
  · rename_i c hb
    rw [resetEvent_eq] at hu
    refine Or.inl ⟨(Host.Outcome.next.inj hu).symm, fun addr len hc => ?_⟩
    rw [hb] at hc
    cases hc

/-- A reset in mid-`APPLY`, where the whole `APPLY` would have gone on to `t`. -/
theorem abandon_apply {b : Packet} {addr len k0 : Nat} {s t : State} (hb : decode b = .ok (.apply addr len))
    (ht : exec (.apply addr len) s = .next t) :
    abandon b k0 s = .next (withResponse none (wipeBlock (withBuf (copyPrefix t.buf s.buf addr (min k0 len)) s))) := by
  have hexec : execApply addr len s = .next t := ht
  simp only [abandon, hb, abandonedApply, hexec, resetEvent_eq]

/-- Everything a store of the host can do when it answers a next state. -/
theorem hostWrite_next {addr : BitVec 32} {v : Byte} {s t : State} (ht : hostWrite addr v s = .next t) :
    ordinaryRange s addr.toNat 1 = true ∧ t = withBuf (Memory.write s.buf addr.toNat v) s := by
  obtain ⟨ho, hk⟩ := onOrdinary_next ht
  exact ⟨ho, (Host.Outcome.next.inj hk).symm⟩

/-- `APPLY` touches neither the flag, the scratch, the platform nor the host's moves. -/
theorem applyStream_frame (addr len : Nat) (s : State) :
    (applyStream addr len s).ST = s.ST ∧ (applyStream addr len s).W = s.W ∧
    (applyStream addr len s).platform = s.platform ∧ (applyStream addr len s).inputs = s.inputs ∧
    (applyStream addr len s).response = s.response := by
  unfold applyStream applyTail
  simp only
  split_ifs <;> simp

/-- `INITAT`'s seek leaves `BUF`, the scratch, the flag, the platform and the host's moves. -/
theorem seek_frame (offset : Nat) (s : State) :
    (seek offset s).ST = s.ST ∧ (seek offset s).W = s.W ∧ (seek offset s).buf = s.buf ∧
    (seek offset s).platform = s.platform ∧ (seek offset s).inputs = s.inputs ∧
    (seek offset s).response = s.response := by
  unfold seek seekTail
  split_ifs <;> simp

end Sys2Proof.Machine
end

