-- ==== Sys2Proof/Laws/PerInstr.lean ====
section
/-! SUPPORT. Laws/PerInstr.lean: what holds of the packet of every command (rules R52, R59, R63), one lemma per command. -/

namespace Sys2Proof.Laws

/-- The packet of a command starts with one of the five opcodes and has exactly the length that opcode demands. -/
def OpcodeByte.Statement (i : Instr) : Prop :=
  ∃ op bs, encode i = op :: bs ∧ 1 ≤ op.toNat ∧ op.toNat ≤ 5 ∧ (encode i).length = formatLength op.toNat

theorem OpcodeByte.init (key iv : Key) : OpcodeByte.Statement (.init key iv) :=
  ⟨0x01, _, rfl, by decide, by decide, by simp [encode, formatLength, key.length_eq, iv.length_eq]⟩

theorem OpcodeByte.initAt (key iv : Key) (offset : Nat) : OpcodeByte.Statement (.initAt key iv offset) :=
  ⟨0x02, _, rfl, by decide, by decide, by simp [encode, formatLength, key.length_eq, iv.length_eq]⟩

theorem OpcodeByte.nextw : OpcodeByte.Statement .nextw :=
  ⟨0x03, _, rfl, by decide, by decide, rfl⟩

theorem OpcodeByte.apply (addr len : Nat) : OpcodeByte.Statement (.apply addr len) :=
  ⟨0x04, _, rfl, by decide, by decide, by simp [encode, formatLength]⟩

theorem OpcodeByte.release : OpcodeByte.Statement .release :=
  ⟨0x05, _, rfl, by decide, by decide, rfl⟩

end Sys2Proof.Laws
end

