-- ==== Sys2Proof/Machine/Text.lean ====
section
/-! DEFINITION. Machine/Text.lean: the one-line text form of a command (rules R68, R69), read into the command it stands
for. The block never sees it; an assembler is this reading followed by `encode` (R52). -/

namespace Sys2Proof.Machine.Text

/-- The commands that a mnemonic or an alias can name. -/
inductive Kind where
  | init
  | initAt
  | nextw
  | apply
  | release
deriving DecidableEq, Repr

/-- The mnemonics of R68 and the aliases of R69; upper case only. -/
def kindOf (name : String) : Option Kind :=
  if name ∈ ["INIT", "NEW", "INITIALIZE"] then some .init
  else if name ∈ ["INITAT", "NEWATOFFSET", "INITIALIZEATOFFSET"] then some .initAt
  else if name ∈ ["NEXTW", "NEXTWORD"] then some .nextw
  else if name ∈ ["APPLY", "APPLYSTREAM", "ENCRYPT", "DECRYPT"] then some .apply
  else if name ∈ ["RELEASE", "CLOSE", "DESTROY"] then some .release
  else none

/-- The words of a line: maximal runs without a blank. -/
def words (cs : List Char) : List (List Char) :=
  let parts := cs.foldr (fun c acc =>
    if c = ' ' then [] :: acc
    else match acc with
      | [] => [[c]]
      | w :: ws => (c :: w) :: ws) [[]]
  parts.filter fun w => !w.isEmpty

/-- The line without its comment, which `#` starts (R68). -/
def withoutComment (cs : List Char) : List Char := cs.takeWhile fun c => decide (c ≠ '#')

/-- The value of one hexadecimal digit. -/
def digit (c : Char) : Option Nat :=
  if 48 ≤ c.toNat ∧ c.toNat ≤ 57 then some (c.toNat - 48)
  else if 97 ≤ c.toNat ∧ c.toNat ≤ 102 then some (c.toNat - 87)
  else if 65 ≤ c.toNat ∧ c.toNat ≤ 70 then some (c.toNat - 55)
  else none

/-- The values of a string of hexadecimal digits. -/
def digits : List Char → Option (List Nat)
  | [] => some []
  | c :: cs =>
    match digit c, digits cs with
    | some d, some ds => some (d :: ds)
    | _, _ => none

/-- A non-empty string of digits as a number in the base. -/
def numberIn (base : Nat) (cs : List Char) : Option Nat :=
  match digits cs with
  | some (d :: ds) =>
    if (d :: ds).all fun e => decide (e < base) then some ((d :: ds).foldl (fun n e => base * n + e) 0) else none
  | _ => none

/-- `<number>`: decimal, or hexadecimal with `0x` (R68). -/
def number (cs : List Char) : Option Nat :=
  match cs with
  | '0' :: 'x' :: hex => numberIn 16 hex
  | _ => numberIn 10 cs

/-- One word of a key or an IV: hexadecimal digits, or `0*n` for `n` zero digits (R68). -/
def keyDigits (cs : List Char) : Option (List Nat) :=
  match cs with
  | '0' :: '*' :: count => (numberIn 10 count).map fun n => List.replicate n 0
  | _ => digits cs

/-- The digits of all words of a key or an IV, in order. -/
def allDigits : List (List Char) → Option (List Nat)
  | [] => some []
  | w :: ws =>
    match keyDigits w, allDigits ws with
    | some ds, some es => some (ds ++ es)
    | _, _ => none

/-- Two digits a byte, the upper digit first. -/
def pairUp : List Nat → Option (List Byte)
  | [] => some []
  | [_] => none
  | hi :: lo :: ds => (pairUp ds).map fun bs => BitVec.ofNat 8 (16 * hi + lo) :: bs

/-- 64 digits as 32 bytes, byte 0 first (R68). -/
def keyBytes (ws : List (List Char)) : Option Key :=
  match (allDigits ws).bind pairUp with
  | some bs => if hlen : bs.length = 32 then some ⟨bs, hlen⟩ else none
  | none => none

/-- An operand: its name and the words of its value. -/
structure Field where
  name : String
  value : List (List Char)
deriving DecidableEq, Repr

/-- The operands among the words after the mnemonic: a word with `=` starts one, and the words up to the next such word
go on with its value. The words before the first `=` come back apart. -/
def fields (ws : List (List Char)) : List (List Char) × List Field :=
  ws.foldr (fun w acc =>
    match w.dropWhile fun c => decide (c ≠ '=') with
    | [] => (w :: acc.1, acc.2)
    | _ :: v => ([], ⟨String.ofList (w.takeWhile fun c => decide (c ≠ '=')), v :: acc.1⟩ :: acc.2)) ([], [])

/-- An operand that is one number. -/
def fieldNumber (f : Field) : Option Nat :=
  match f.value with
  | [w] => number w
  | _ => none

/-- The command of a mnemonic's kind and its operands, in the order of R68. -/
def command (k : Kind) (fs : List Field) : Option Instr :=
  match k, fs with
  | .init, [key, iv] =>
    if key.name = "key" ∧ iv.name = "iv" then
      match keyBytes key.value, keyBytes iv.value with
      | some a, some b => some (.init a b)
      | _, _ => none
    else none
  | .initAt, [key, iv, offset] =>
    if key.name = "key" ∧ iv.name = "iv" ∧ offset.name = "offset" then
      match keyBytes key.value, keyBytes iv.value, fieldNumber offset with
      | some a, some b, some n => some (.initAt a b n)
      | _, _, _ => none
    else none
  | .nextw, [] => some .nextw
  | .apply, [addr, len] =>
    if addr.name = "addr" ∧ len.name = "len" then
      match fieldNumber addr, fieldNumber len with
      | some a, some n => some (.apply a n)
      | _, _ => none
    else none
  | .release, [] => some .release
  | _, _ => none

/-- What a line of text says (R68). -/
inductive Line where
  /-- Nothing but blanks or a comment. -/
  | blank
  /-- One command, well-formed. -/
  | command (i : Instr)
  /-- Not a command in the syntax of R68. -/
  | wrong
deriving DecidableEq, Repr

/-- One line: a mnemonic or an alias, then its operands; a number wider than its field is no command. -/
def readLine (cs : List Char) : Line :=
  match words (withoutComment cs) with
  | [] => .blank
  | name :: ws =>
    match kindOf (String.ofList name), fields ws with
    | some k, ([], fs) =>
      match command k fs with
      | some i => if WellFormed i then .command i else .wrong
      | none => .wrong
    | _, _ => .wrong

end Sys2Proof.Machine.Text
end

