-- ==== Sys2Proof/Tests/Slice0.lean ====
section
/-! SUPPORT. Tests/Slice0.lean: the WellFormed smoke test, words written out from the spec's encodings, one-step tests with
the spec's own values, the host's two questions about every row, and a witness for every statement's hypotheses. -/

namespace Sys2Proof.Tests

open Sys2Proof Sys2Proof.Machine

/-! ## WellFormed: an ill-formed term for each check -/

theorem test_offset_of_65_bits_is_ill_formed (key iv : Key) :
    WellFormed (.initAt key iv 18446744073709551616) = false := rfl

theorem test_addr_of_33_bits_is_ill_formed : WellFormed (.apply 4294967296 0) = false := by decide

theorem test_len_of_33_bits_is_ill_formed : WellFormed (.apply 0 4294967296) = false := by decide

theorem test_widest_operands_are_well_formed (key iv : Key) :
    WellFormed (.initAt key iv 18446744073709551615) = true ∧ WellFormed (.apply 4294967295 4294967295) = true := ⟨rfl, rfl⟩

/-! ## Decoding: packets written out from R52 -/

/-- 32 bytes counting up from `b`: the key and the IV of the example in R101. -/
def countingKey (b : Nat) : Key := Arr.build 32 fun t => BitVec.ofNat 8 (b + t)

/-- R52 format `K`: `01`, the key, the IV. -/
theorem test_decode_init :
    decode [0x01, 0x00, 0x01, 0x02, 0x03, 0x04, 0x05, 0x06, 0x07, 0x08, 0x09, 0x0a, 0x0b, 0x0c, 0x0d, 0x0e, 0x0f,
      0x10, 0x11, 0x12, 0x13, 0x14, 0x15, 0x16, 0x17, 0x18, 0x19, 0x1a, 0x1b, 0x1c, 0x1d, 0x1e, 0x1f,
      0x80, 0x81, 0x82, 0x83, 0x84, 0x85, 0x86, 0x87, 0x88, 0x89, 0x8a, 0x8b, 0x8c, 0x8d, 0x8e, 0x8f,
      0x90, 0x91, 0x92, 0x93, 0x94, 0x95, 0x96, 0x97, 0x98, 0x99, 0x9a, 0x9b, 0x9c, 0x9d, 0x9e, 0x9f] =
      .ok (.init (countingKey 0) (countingKey 0x80)) := by decide +kernel

/-- R52 format `KO`: `02`, the key, the IV, the offset with its least significant byte first (R56). -/
theorem test_decode_initAt :
    decode (0x02#8 :: ((countingKey 0).toList ++ (countingKey 0x80).toList ++
      [0xef, 0xcd, 0xab, 0x89, 0x67, 0x45, 0x23, 0x01])) =
      .ok (.initAt (countingKey 0) (countingKey 0x80) 0x0123456789abcdef) := by decide +kernel

/-- R52 format `Z`. -/
theorem test_decode_nextw : decode [0x03] = .ok .nextw := by decide

/-- R52 format `AL`: `04`, `addr`, `len`, little-endian. -/
theorem test_decode_apply :
    decode [0x04, 0x78, 0x56, 0x34, 0x12, 0xef, 0xcd, 0xab, 0x89] = .ok (.apply 0x12345678 0x89abcdef) := by decide

/-- R52 format `Z`. -/
theorem test_decode_release : decode [0x05] = .ok .release := by decide

/-- R193: the opcode before the length; R60: `00` is no command. -/
theorem test_decode_refuses :
    decode [] = .error .ERR_FORMAT ∧ decode [0x00] = .error .ERR_ILLEGAL_OP ∧
    decode [0x07, 0x00, 0x00] = .error .ERR_ILLEGAL_OP ∧ decode [0x03, 0x00] = .error .ERR_FORMAT := by decide

/-- Every command's packet written out (R52), so that encoding too is held against the spec. -/
theorem test_encode_words :
    encode (.apply 0x1000 32) = [0x04, 0x00, 0x10, 0x00, 0x00, 0x20, 0x00, 0x00, 0x00] ∧
    encode .nextw = [0x03] ∧ encode .release = [0x05] ∧
    (encode (.initAt (Arr.fill 32 0) (Arr.fill 32 0) 5)).drop 65 = [0x05, 0, 0, 0, 0, 0, 0, 0] ∧
    (encode (.init ((Arr.fill 32 0).set 0 0x55) (Arr.fill 32 0))).take 3 = [0x01, 0x55, 0x00] := by decide

/-- R68, R69, with the lines of 95_test_vectors.md section 4 and R70: one command a line, aliases, comments. -/
theorem test_text_lines :
    Text.readLine "INIT key=55 0*62 iv=0*64".toList = .command (.init ((Arr.fill 32 0).set 0 0x55) (Arr.fill 32 0)) ∧
    Text.readLine "INITAT key=0*64 iv=01 0*62   offset=5 # seek".toList =
      .command (.initAt (Arr.fill 32 0) ((Arr.fill 32 0).set 0 0x01) 5) ∧
    Text.readLine "DECRYPT addr=0xfffffff0 len=16".toList = .command (.apply 0xfffffff0 16) ∧
    Text.readLine "CLOSE".toList = .command .release ∧ Text.readLine "  # nothing".toList = .blank ∧
    Text.readLine "nextw".toList = .wrong ∧ Text.readLine "APPLY addr=4294967296 len=0".toList = .wrong := by
  decide +kernel

/-! ## The host's two questions, for each row of the opcode table -/

theorem test_table_words_decode :
    (decodeTableWord 520 1).isSome ∧ (decodeTableWord 584 2).isSome ∧ decodeTableWord 8 3 = some .nextw ∧
    decodeTableWord 72 0x000000200000100004 = some (.apply 0x1000 32) ∧ decodeTableWord 8 4 = some (.apply 0 0) ∧
    decodeTableWord 8 5 = some .release ∧ decodeTableWord 8 6 = none := by decide +kernel

theorem test_first_step_runs_table_words :
    (∃ t, step (State.reset.withFetchWord 8 1) = .next t) ∧ (∃ t, step (State.reset.withFetchWord 8 2) = .next t) ∧
    (∃ t, step (State.reset.withFetchWord 8 3) = .next t) ∧ (∃ t, step (State.reset.withFetchWord 8 4) = .next t) ∧
    (∃ t, step (State.reset.withFetchWord 8 5) = .next t) :=
  ⟨⟨_, rfl⟩, ⟨_, rfl⟩, ⟨_, rfl⟩, ⟨_, rfl⟩, ⟨_, rfl⟩⟩

/-! ## One step, with values of the spec -/

/-- A `READY` block with zero tables. -/
def ready : State := { State.reset with ST := .READY }

/-- The synthetic tables of R126, at position `i`. -/
def synthetic (i : BitVec 11) : State :=
  { ready with
    P := Arr.build 1024 fun k => BitVec.ofNat 32 ((k + 1) * 0x9e3779b9)
    Q := Arr.build 1024 fun k => BitVec.ofNat 32 ((k + 1) * 0x85ebca6b)
    index := i }

/-- A `READY` block with three pending bytes, those of R144 after its call 2. -/
def carrying : State :=
  { ready with pendingBytes := ⟨[0xb6, 0x79, 0x51], rfl⟩, pendingCount := 3 }

/-- The state an outcome goes on to. -/
def after (o : Host.Outcome State Fault Refusal) : State :=
  match o with
  | .next t => t
  | .fault _ => State.reset
  | .refused _ => State.reset

/-- R126, `i = 1023`: output `a4f50adb`, `P[1023]` becomes `321b1a76`, `index` 1024. -/
theorem test_nextw_last_of_P_half :
    let t := after (exec .nextw (synthetic 1023))
    t.response = some ⟨.OK, [0xdb, 0x0a, 0xf5, 0xa4]⟩ ∧ readTable t.P 1023 = 0x321b1a76 ∧ t.index = 1024 := by
  decide +kernel

/-- R126, `i = 2047`: output `a86a06f5`, `Q[1023]` becomes `2e8cb757`, `index` 0. -/
theorem test_nextw_last_of_Q_half :
    let t := after (exec .nextw (synthetic 2047))
    t.response = some ⟨.OK, [0xf5, 0x06, 0x6a, 0xa8]⟩ ∧ readTable t.Q 1023 = 0x2e8cb757 ∧ t.index = 0 := by
  decide +kernel

/-- R144, call 3: two of three pending bytes go to zero bytes of `BUF`, one stays, right-anchored. -/
theorem test_apply_drain :
    let t := after (exec (.apply 0x1000 2) carrying)
    t.buf = [(0x1000, 0xb6), (0x1001, 0x79)] ∧ t.pendingBytes.toList = [0x00, 0x00, 0x51] ∧ t.pendingCount = 1 ∧
      t.index = 0 := by decide +kernel

/-- R138, R139 with the word `1d68a2b6` of R126, `i = 5`: after the carry one byte goes to `BUF`, three stay. -/
theorem test_apply_tail :
    let t := after (exec (.apply 0xfffffffc 4) { synthetic 5 with
      pendingBytes := carrying.pendingBytes, pendingCount := 3, buf := [(0xffffffff, 0xff)] })
    t.buf = [(0xfffffffc, 0xb6), (0xfffffffd, 0x79), (0xfffffffe, 0x51), (0xffffffff, 0x49)] ∧
      t.pendingBytes.toList = [0xa2, 0x68, 0x1d] ∧ t.pendingCount = 3 ∧ t.index = 6 := by decide +kernel

/-- R101 and R102: the scratch of the counting key and IV, and the first words of the recurrence from zero. -/
theorem test_init_scratch :
    let w := loadKeyIv (countingKey 0) (countingKey 0x80) 8 (Arr.fill 2560 0)
    let z := expandScratch 5 (loadKeyIv (Arr.fill 32 0) (Arr.fill 32 0) 8 (Arr.fill 2560 0))
    readScratch w 0 = 0x03020100 ∧ readScratch w 7 = 0x1f1e1d1c ∧ readScratch w 8 = 0x83828180 ∧
      readScratch w 15 = 0x9f9e9d9c ∧ readScratch z 16 = 0x10 ∧ readScratch z 17 = 0x11 ∧
      readScratch z 18 = 0x000a0012 ∧ readScratch z 19 = 0x000aa013 ∧ readScratch z 20 = 0x400b4298 := by
  decide +kernel

/-- R152, `rem = 3`, with the word `559a515e` of R126, `i = 1024`: one byte is kept, at position 2. -/
theorem test_initAt_partial_word :
    let t := seek 3 (synthetic 1024)
    t.pendingBytes.toList = [0x00, 0x00, 0x55] ∧ t.pendingCount = 1 ∧ t.index = 1025 := by decide +kernel

/-- R160: the carry is wiped, `BUF` is not. -/
theorem test_release :
    let t := after (exec .release { carrying with buf := [(7, 0x2a)] })
    t.ST = .EMPTY ∧ t.pendingBytes.toList = [0, 0, 0] ∧ t.pendingCount = 0 ∧ t.buf = [(7, 0x2a)] ∧
      t.response = some ⟨.OK, []⟩ := by decide +kernel

/-- R218: three of eight bytes were done when reset struck. -/
theorem test_reset_in_mid_apply :
    let s := { carrying with inputs := [.resetDuring (encode (.apply 0x10 8)) none 3], buf := [(0x13, 0x2a)] }
    (after (step s)).buf = [(0x10, 0xb6), (0x11, 0x79), (0x12, 0x51), (0x13, 0x2a)] ∧ (after (step s)).ST = .EMPTY ∧
      (after (step s)).response = none := by decide +kernel

/-! ## Witnesses: for every statement with hypotheses, a state and operands that meet them -/

/-- A `READY` block whose address space has a hole and a device. -/
def holed : State := { ready with platform := [⟨0x100, 0x10, .hole⟩, ⟨0x200, 1, .device⟩] }

/-- The state with one move of the host to come. -/
def facing (m : HostMove) (s : State) : State := { s with inputs := [m] }

/-- A session at byte 0. -/
def session : State := setReady (freshSession (Arr.fill 32 0) (Arr.fill 32 0))

theorem ready_admits (addr len : Nat) (hr : addr + len ≤ Config.BUF_SIZE) : Admitted ready addr len := ⟨rfl, hr, rfl⟩

theorem session_admits (addr len : Nat) (hr : addr + len ≤ Config.BUF_SIZE) : Admitted session addr len := by
  refine ⟨by simp [session], hr, ?_⟩
  rw [ordinaryRange_congr (t := State.reset) (by simp [session, freshSession])]
  rfl

theorem session_at_zero : AtPosition (Arr.fill 32 0) (Arr.fill 32 0) 0 0 session := by
  have hcount : session.pendingCount = 0 := by simp [session, freshSession]
  refine ⟨by simp [session], ⟨by simp [session], by simp [session], by simp [session]⟩, by rw [hcount]; rfl, ?_⟩
  intro t ht
  rw [hcount] at ht
  exact absurd ht (Nat.not_lt_zero t)

theorem test_witness_DecodeInvertsEncode :
    (∃ i j : Instr, WellFormed i = true ∧ WellFormed j = true ∧ encode i = encode j) ∧
    (∃ b c, decode b = .error c ∧ b ≠ []) ∧ decode (encode (.apply 4294967295 4294967295)) = .ok (.apply 4294967295 4294967295) :=
  ⟨⟨.apply 4294967295 0, .apply 4294967295 0, rfl, rfl, rfl⟩, ⟨[0x06], .ERR_ILLEGAL_OP, rfl, by decide⟩, by decide⟩

theorem test_witness_WorkedEncodingsAreRead : ∃ s : State, s.ST = .READY ∧ s.platform = [] := ⟨ready, rfl, rfl⟩

theorem test_witness_IllegalOpcodePacketRefused :
    ∀ op ∈ [0x00#8, 0x06#8, 0xff#8], op.toNat = 0 ∨ 6 ≤ op.toNat := by decide

theorem test_witness_WrongLengthPacketRefused :
    (opcodeOf [0x01#8] = 1 ∧ [0x01#8].length ≠ 65) ∧ (opcodeOf [0x02#8] = 2 ∧ [0x02#8].length ≠ 73) ∧
    (opcodeOf [0x03#8, 0] = 3 ∧ [0x03#8, 0].length ≠ 1) ∧ (opcodeOf [0x04#8] = 4 ∧ [0x04#8].length ≠ 9) ∧
    (opcodeOf [0x05#8, 0] = 5 ∧ [0x05#8, 0].length ≠ 1) := by decide

theorem test_witness_StepRunsDecodedPacket :
    (∃ (s : State) (b : Packet) (rest : List HostMove) (i : Instr), s.inputs = .packet b :: rest ∧ decode b = .ok i) ∧
    (∃ (s : State) (b : Packet) (rest : List HostMove) (c : Code), s.inputs = .packet b :: rest ∧ decode b = .error c) :=
  ⟨⟨facing (.packet [0x03]) ready, _, [], .nextw, rfl, rfl⟩, ⟨facing (.packet []) ready, _, [], .ERR_FORMAT, rfl, rfl⟩⟩

theorem test_witness_StepRunsEncodedCommand :
    ∃ (s : State) (i : Instr) (rest : List HostMove), WellFormed i = true ∧ s.inputs = .packet (encode i) :: rest :=
  ⟨facing (.packet (encode (.apply 0 4294967295))) ready, .apply 0 4294967295, [], rfl, rfl⟩

theorem test_witness_TableWordIsNextCommand : decodeTableWord 72 0x000000200000100004 = some (.apply 0x1000 32) := by
  decide +kernel

theorem test_witness_IdleStepKeepsState : State.reset.inputs = [] := rfl

theorem test_witness_ResetEventGivesResetState :
    ∃ (s : State) (rest : List HostMove), s.inputs = .reset :: rest ∧ s.ST = .READY := ⟨facing .reset ready, [], rfl, rfl⟩

theorem test_witness_ResetInMidCommandGivesResetState :
    ∃ (s t : State) (b : Packet) (w : Option Packet) (k0 : Nat) (rest : List HostMove),
      s.inputs = .resetDuring b w k0 :: rest ∧ Memory.wf s.buf = true ∧ step s = .next t :=
  ⟨facing (.resetDuring [0x03] (some [0x05]) 0) ready, _, _, _, _, [], rfl, rfl, rfl⟩

theorem test_witness_ResetInMidApplyLeavesPrefix :
    ∃ (s : State) (addr len k0 : Nat) (w : Option Packet) (rest : List HostMove),
      WellFormed (.apply addr len) = true ∧ Admitted s addr len ∧ Memory.wf s.buf = true ∧
      s.inputs = .resetDuring (encode (.apply addr len)) w k0 :: rest ∧ k0 < len :=
  ⟨facing (.resetDuring (encode (.apply 4294967288 8)) none 3) ready, 4294967288, 8, 3, none, [], rfl,
    ⟨rfl, by decide, rfl⟩, rfl, rfl, by decide⟩

theorem test_witness_HostStoreWritesOneByte :
    ∃ (s : State) (addr : BitVec 32) (v : Byte) (rest : List HostMove),
      s.inputs = .bufWrite addr v :: rest ∧ ordinaryRange s addr.toNat 1 = true ∧ Memory.wf s.buf = true :=
  ⟨facing (.bufWrite 0xffffffff 0x2a) holed, 0xffffffff, 0x2a, [], rfl, by decide, rfl⟩

theorem test_witness_RefusalChangesNothing :
    ∃ (s t : State) (b : Packet) (r : Response), runPacket b s = .next t ∧ t.response = some r ∧ r.code ≠ .OK :=
  ⟨State.reset, _, [0x03], ⟨.ERR_NOT_INIT, []⟩, rfl, rfl, by decide⟩

theorem test_witness_FirstCauseIsReported :
    (∃ (s t : State) (b : Packet), runPacket b s = .next t) ∧
    ∃ (s : State) (bs : List Byte), s.ST = .EMPTY ∧ bs.length = 9 :=
  ⟨⟨ready, _, [0x03], rfl⟩, ⟨State.reset, List.replicate 9 0, rfl, rfl⟩⟩

theorem test_witness_OnlyNextwReturnsData :
    (∃ (s t : State) (b : Packet), runPacket b s = .next t ∧ b = [0x03#8] ∧ t.response.map Response.code = some .OK) ∧
    (∃ (s t : State) (b : Packet), runPacket b s = .next t ∧ b ≠ [0x03#8]) :=
  ⟨⟨ready, _, [0x03], rfl, rfl, rfl⟩, ⟨ready, _, [0x05], rfl, by decide⟩⟩

theorem test_witness_AssertionNeverReported :
    ∃ (s t : State) (r : Response), step s = .next t ∧ t.response = some r :=
  ⟨facing (.packet []) ready, _, ⟨.ERR_FORMAT, []⟩, rfl, rfl⟩

theorem test_witness_AddIsSumModuloWord : ∃ ws vs : List Word, ws.Perm vs ∧ ws ≠ vs :=
  ⟨[1, 2], [2, 1], List.Perm.swap 2 1 [], by decide⟩

theorem test_witness_RotateMovesBits : ∀ n ∈ [1, 7, 31], 1 ≤ n ∧ n < 32 ∧ ∀ k ∈ [0, 31], k < 32 := by decide

theorem test_witness_WordsAreLittleEndian : (0 < 4) ∧ (3 < 4) := by decide

theorem test_witness_NextWordHalves :
    (synthetic 0).index.toNat < 1024 ∧ (synthetic 1023).index.toNat < 1024 ∧ 1024 ≤ (synthetic 1024).index.toNat ∧
      1024 ≤ (synthetic 2047).index.toNat := by decide

theorem test_witness_IndexAfterWords : ∃ s : State, s.index.toNat = 2047 := ⟨synthetic 2047, rfl⟩

theorem test_witness_OneWordWrittenPerCall :
    ∃ s : State, s.index = 0 ∧ (0 < 1024 ∧ 1023 < 1024) ∧ (1024 ≤ 1024 ∧ 2047 < 2048) := ⟨ready, rfl, by decide⟩

theorem test_witness_ZeroTablesGiveZeroForEver : ∃ s : State, s.P = Arr.fill 1024 0 ∧ s.Q = Arr.fill 1024 0 :=
  ⟨ready, rfl, rfl⟩

theorem test_witness_NextwReturnsOneWord : ready.ST = .READY ∧ State.reset.ST = .EMPTY := ⟨rfl, rfl⟩

theorem test_witness_ScratchStartsWithKeyAndIv : (0 < 8) ∧ (7 < 8) := by decide

theorem test_witness_ScratchMeetsRecurrence : (16 ≤ 16 ∧ 16 < 2560) ∧ (16 ≤ 2559 ∧ 2559 < 2560) := by decide

theorem test_witness_TablesAreScratchSlices : (0 < 1024) ∧ (1023 < 1024) := by decide

theorem test_witness_SeekKeepsTrailingBytes :
    (8 % 4 = 0) ∧ (5 % 4 = 1) ∧ (6 % 4 = 2) ∧ (18446744073709551615 % 4 = 3) := by decide

theorem test_witness_SeekEqualsInitThenApply :
    ∃ (s : State) (offset addr : Nat), addr + offset ≤ Config.BUF_SIZE ∧ ordinaryRange s addr offset = true :=
  ⟨State.reset, 5, 4294967291, by decide, rfl⟩

theorem test_witness_SeekEquivalence :
    (∃ (m a : Nat) (s : State), Memory.wf s.buf = true ∧ a + m ≤ Config.BUF_SIZE ∧ ordinaryRange s a m = true ∧
      (∀ k, k < m → Memory.read s.buf (a + k) = 0) ∧ 0 < m) ∧
    (∃ (n m a' : Nat) (s : State), Memory.wf s.buf = true ∧ a' + (n + m) ≤ Config.BUF_SIZE ∧
      ordinaryRange s a' (n + m) = true ∧ (∀ k, k < n + m → Memory.read s.buf (a' + k) = 0) ∧ 0 < n ∧ 0 < m) :=
  ⟨⟨8, 4294967288, State.reset, rfl, by decide, rfl, fun _ _ => rfl, by decide⟩,
    ⟨5, 8, 4294967283, State.reset, rfl, by decide, rfl, fun _ _ => rfl, by decide, by decide⟩⟩

theorem test_witness_ApplyAdmission :
    State.reset.ST = .EMPTY ∧ (ready.ST = .READY ∧ 2 ^ 32 < 0xfffffff0 + 17) ∧
    (0xfffffff0 + 16 ≤ 2 ^ 32 ∧ ordinaryRange ready 0xfffffff0 16 = true) ∧ 4294967295 < 2 ^ 32 :=
  ⟨rfl, ⟨rfl, by decide⟩, ⟨by decide, rfl⟩, by decide⟩

theorem test_witness_ApplyXorsStream :
    ∃ (s : State) (addr len : Nat), Admitted s addr len ∧ Memory.wf s.buf = true ∧ 0 < len :=
  ⟨ready, 4294967279, 17, ready_admits _ _ (by decide), rfl, by decide⟩

theorem test_witness_ApplyDrawsWords :
    ∃ s : State, (Admitted s 0 3 ∧ 3 ≤ s.pendingCount.toNat) ∧ (Admitted s 0 4 ∧ s.pendingCount.toNat < 4) :=
  ⟨carrying, ⟨⟨rfl, by decide, rfl⟩, by decide⟩, ⟨⟨rfl, by decide, rfl⟩, by decide⟩⟩

theorem test_witness_ApplyEarlyEnd :
    ∃ s : State, (Admitted s 0 0 ∧ 0 ≤ s.pendingCount.toNat) ∧
      (Admitted s 0 3 ∧ 3 = s.pendingCount.toNat ∧ PendingClean s) :=
  ⟨carrying, ⟨⟨rfl, by decide, rfl⟩, by decide⟩, ⟨⟨rfl, by decide, rfl⟩, by decide, by decide⟩⟩

theorem test_witness_ApplyTailKeepsCarry :
    ∃ s : State, PendingClean s ∧ Memory.wf s.buf = true ∧ ∀ len ∈ [4, 5, 6, 7],
      Admitted s 0 len ∧ s.pendingCount.toNat < len :=
  ⟨carrying, by decide, rfl, fun len hlen => by
    have hle : 4 ≤ len ∧ len ≤ 7 := by
      simp only [List.mem_cons, List.not_mem_nil, or_false] at hlen
      omega
    have hcount : carrying.pendingCount.toNat = 3 := rfl
    exact ⟨⟨rfl, by simp only [Config.BUF_SIZE]; omega, rfl⟩, by omega⟩⟩

theorem test_witness_ApplyDeliversKeystream :
    ∃ (key iv : Key) (words pos : Nat) (s : State) (addr len : Nat),
      AtPosition key iv words pos s ∧ Admitted s addr len ∧ Memory.wf s.buf = true ∧ 0 < len :=
  ⟨_, _, 0, 0, session, 0, 32, session_at_zero, session_admits _ _ (by decide), by simp [session, freshSession, wf_reset],
    by decide⟩

theorem test_witness_ApplyAdvancesStream : ∃ (s : State) (addr len : Nat), Admitted s addr len ∧ 0 < len :=
  ⟨ready, 0, 5, ready_admits _ _ (by decide), by decide⟩

theorem ready_at_boundary : BoundaryInv ready := by
  refine ⟨by decide, rfl, fun hst => ?_, rfl⟩
  cases hst

theorem test_witness_CallSplittingInvariance :
    ∃ (s : State) (a : Nat) (lens : List Nat), BoundaryInv s ∧ Admitted s a lens.sum ∧ 1 < lens.length :=
  ⟨ready, 0x1000, [1, 12, 0, 2], ready_at_boundary, ready_admits _ _ (by decide), by decide⟩

theorem test_witness_ApplyTwiceFromSamePositionRestores :
    ∃ (addr len : Nat) (s : State), Memory.wf s.buf = true ∧ addr + len ≤ Config.BUF_SIZE ∧
      ordinaryRange s addr len = true ∧ Memory.read s.buf addr ≠ 0 :=
  ⟨7, 3, { ready with buf := [(7, 0x2a)] }, by decide, by decide, rfl, by decide⟩

theorem test_witness_PositionFollowsCommands :
    ∃ (key iv : Key) (words pos : Nat) (s : State), AtPosition key iv words pos s ∧ Admitted s 0 5 ∧ s.pendingCount = 0 :=
  ⟨_, _, 0, 0, session, session_at_zero, session_admits _ _ (by decide), by simp [session, freshSession]⟩

theorem test_witness_ApplyStopsOffOrdinaryMemory :
    holed.ST = .READY ∧ (touches .device holed.platform 0x200 1 = true ∧ 0x200 + 1 ≤ Config.BUF_SIZE) ∧
    (touches .device holed.platform 0x10f 1 = false ∧ touches .hole holed.platform 0x10f 1 = true) ∧
    (touches .device holed.platform 0x110 0xf0 = false ∧ touches .hole holed.platform 0x110 0xf0 = false) := by decide

theorem test_witness_BufDataDoesNotReachBlock :
    (∃ t, exec (.apply 0 5) ready = .next t) ∧ (∃ t, exec .nextw ready = .next t) := ⟨⟨_, rfl⟩, ⟨_, rfl⟩⟩

theorem test_witness_CountsIndependentOfSecrets :
    ∃ (i : Instr) (s s' t : State), (i = .nextw ∨ ∃ addr len, i = .apply addr len) ∧ s.index = s'.index ∧
      s.pendingCount = s'.pendingCount ∧ s.ST = s'.ST ∧ s.platform = s'.platform ∧ exec i s = .next t :=
  ⟨.apply 0 5, synthetic 0, ready, _, Or.inr ⟨0, 5, rfl⟩, rfl, rfl, rfl, rfl, rfl⟩

theorem test_witness_ReleaseGivesResetState : [0x00#8] ≠ [] := by decide

theorem test_witness_OnlyInitSucceedsAfterReset : State.reset.ST = .EMPTY := rfl

theorem test_witness_StepKeepsInvariant : ∃ s t : State, BoundaryInv s ∧ step s = .next t ∧ t.ST ≠ s.ST :=
  ⟨facing .reset ready, _, ready_at_boundary, rfl, by decide⟩

theorem test_witness_LifecycleTransitions :
    (∃ s t : State, step s = .next t ∧ s.ST = .READY ∧ t.ST = .EMPTY) ∧
    (∃ s t : State, step s = .next t ∧ s.ST = .EMPTY ∧ t.ST = .READY) :=
  ⟨⟨facing (.packet [0x05]) ready, _, rfl, rfl, rfl⟩,
    ⟨facing (.packet (0x01 :: List.replicate 64 0)) State.reset, _, rfl, rfl, rfl⟩⟩

theorem test_witness_OnlyApplyAndHostStoreToBuf :
    ∃ s t : State, Memory.wf s.buf = true ∧ step s = .next t ∧ Memory.read t.buf 9 ≠ Memory.read s.buf 9 :=
  ⟨facing (.bufWrite 9 0x2a) ready, _, rfl, rfl, by decide⟩

end Sys2Proof.Tests
end

section
/-! SUPPORT. The encoding of commands (30_encoding.md, rules R52 to R67): the decoder's answer by opcode and length, its
round trip with the encoder, and the data bytes of a response. -/

namespace Sys2Proof.Machine

/-! ## Bytes of a packet -/

theorem leBytes_leNat_of_length {bs : List Byte} {n : Nat} (hn : bs.length = n) : leBytes n (leNat bs) = bs :=
  hn ▸ leBytes_leNat bs

theorem leNat_lt_of_length {bs : List Byte} {n : Nat} (hn : bs.length = n) : leNat bs < 256 ^ n :=
  hn ▸ leNat_lt bs

/-- `n` bytes of a packet as an array, where `x.toList` stands behind `k` other bytes. -/
theorem packetBytes_eq {b pre post : List Byte} {k n : Nat} {x : Arr Byte n} (hb : b = pre ++ (x.toList ++ post))
    (hk : pre.length = k) (hlen : k + n ≤ b.length) : packetBytes b k n hlen = x := by
  subst hb hk
  obtain ⟨xs, rfl⟩ := x
  simp [packetBytes]

/-! ## The decoder by opcode and length -/

@[simp] theorem opcodeOf_cons (op : Byte) (bs : List Byte) : opcodeOf (op :: bs) = op.toNat := rfl

@[simp] theorem decode_nil : decode [] = .error .ERR_FORMAT := rfl

/-- R60: no other byte of the packet matters. -/
theorem decode_illegal_opcode {b : Packet} (hne : b ≠ []) (hop : opcodeOf b = 0 ∨ 6 ≤ opcodeOf b) :
    decode b = .error .ERR_ILLEGAL_OP := by
  obtain ⟨op, bs, rfl⟩ := List.exists_cons_of_ne_nil hne
  rw [opcodeOf_cons] at hop
  simp only [decode]
  split
  case h_6 => rfl
  all_goals omega

/-- The five opcode bytes of R58. -/
theorem exists_cons_of_legal_opcode {b : Packet} (hlo : 1 ≤ opcodeOf b) (hhi : opcodeOf b ≤ 5) :
    ∃ op bs, b = op :: bs ∧ (op = 0x01#8 ∨ op = 0x02#8 ∨ op = 0x03#8 ∨ op = 0x04#8 ∨ op = 0x05#8) := by
  cases b with
  | nil => exact absurd hlo (by decide)
  | cons op bs =>
    rw [opcodeOf_cons] at hlo hhi
    exact ⟨op, bs, rfl, by bv_omega⟩

/-- R61: with a wrong length no byte after the opcode matters. -/
theorem decode_wrong_length {b : Packet} (hlo : 1 ≤ opcodeOf b) (hhi : opcodeOf b ≤ 5)
    (hlen : b.length ≠ formatLength (opcodeOf b)) : decode b = .error .ERR_FORMAT := by
  obtain ⟨op, bs, rfl, rfl | rfl | rfl | rfl | rfl⟩ := exists_cons_of_legal_opcode hlo hhi
  · exact dif_neg hlen
  · exact dif_neg hlen
  · exact if_neg hlen
  · exact if_neg hlen
  · exact if_neg hlen

/-! ## The round trip -/

theorem decode_encode {i : Instr} (hi : WellFormed i = true) : decode (encode i) = .ok i := by
  cases i with
  | init key iv =>
    have hkey : ∀ hlen, packetBytes (encode (.init key iv)) 1 32 hlen = key :=
      packetBytes_eq (pre := [0x01]) rfl rfl
    have hiv : ∀ hlen, packetBytes (encode (.init key iv)) 33 32 hlen = iv :=
      packetBytes_eq (pre := 0x01 :: key.toList) (post := []) (by simp [encode]) (by simp)
    have hlen : (encode (.init key iv)).length = Config.LEN_K := by simp [encode]
    calc decode (encode (.init key iv)) = decodeInit (encode (.init key iv)) := rfl
      _ = .ok (.init key iv) := by simp only [decodeInit, hlen, hkey, hiv, dite_true]
  | initAt key iv offset =>
    have hkey : ∀ hlen, packetBytes (encode (.initAt key iv offset)) 1 32 hlen = key :=
      packetBytes_eq (pre := [0x02]) (post := iv.toList ++ leBytes 8 offset) (by simp [encode]) rfl
    have hiv : ∀ hlen, packetBytes (encode (.initAt key iv offset)) 33 32 hlen = iv :=
      packetBytes_eq (pre := 0x02 :: key.toList) (post := leBytes 8 offset) (by simp [encode]) (by simp)
    have hoffset : leNat ((encode (.initAt key iv offset)).drop 65) = offset := by
      have hbytes : (encode (.initAt key iv offset)).drop 65 = leBytes 8 offset :=
        List.drop_left' (l₁ := 0x02 :: (key.toList ++ iv.toList)) (by simp)
      rw [hbytes, leNat_leBytes]
      exact Nat.mod_eq_of_lt (of_decide_eq_true hi)
    have hlen : (encode (.initAt key iv offset)).length = Config.LEN_KO := by simp [encode]
    calc decode (encode (.initAt key iv offset)) = decodeInitAt (encode (.initAt key iv offset)) := rfl
      _ = .ok (.initAt key iv offset) := by simp only [decodeInitAt, hlen, hkey, hiv, hoffset, dite_true]
  | nextw => rfl
  | apply addr len =>
    simp only [WellFormed, Bool.and_eq_true, decide_eq_true_eq] at hi
    obtain ⟨haddr, hlen⟩ := hi
    have hreadAddr : leNat (((encode (.apply addr len)).drop 1).take 4) = addr :=
      (leNat_leBytes 4 addr).trans (Nat.mod_eq_of_lt haddr)
    have hreadLen : leNat ((encode (.apply addr len)).drop 5) = len :=
      (leNat_leBytes 4 len).trans (Nat.mod_eq_of_lt hlen)
    calc decode (encode (.apply addr len)) = decodeApply (encode (.apply addr len)) := rfl
      _ = .ok (.apply addr len) := by rw [decodeApply, hreadAddr, hreadLen]; rfl
  | release => rfl

/-- Every packet with a legal opcode and that opcode's length is the encoding of a command: a format has no bit that no
operand stands for. -/
theorem exists_encode_of_length {b : Packet} (hlo : 1 ≤ opcodeOf b) (hhi : opcodeOf b ≤ 5)
    (hlen : b.length = formatLength (opcodeOf b)) : ∃ i, WellFormed i = true ∧ encode i = b := by
  obtain ⟨op, bs, rfl, rfl | rfl | rfl | rfl | rfl⟩ := exists_cons_of_legal_opcode hlo hhi
  all_goals rw [List.length_cons] at hlen
  · have hbs : bs.length = 64 := Nat.succ.inj hlen
    exact ⟨.init ⟨bs.take 32, by simp [hbs]⟩ ⟨bs.drop 32, by simp [hbs]⟩, rfl,
      congrArg (0x01#8 :: ·) (List.take_append_drop 32 bs)⟩
  · have hbs : bs.length = 72 := Nat.succ.inj hlen
    have hoffset : (bs.drop 64).length = 8 := by simp [hbs]
    refine ⟨.initAt ⟨bs.take 32, by simp [hbs]⟩ ⟨(bs.drop 32).take 32, by simp [hbs]⟩ (leNat (bs.drop 64)),
      decide_eq_true (leNat_lt_of_length hoffset), congrArg (0x02#8 :: ·) ?_⟩
    calc bs.take 32 ++ (bs.drop 32).take 32 ++ leBytes 8 (leNat (bs.drop 64))
        = bs.take 64 ++ bs.drop 64 := by rw [leBytes_leNat_of_length hoffset, ← List.take_add]
      _ = bs := List.take_append_drop 64 bs
  · obtain rfl := List.eq_nil_of_length_eq_zero (Nat.succ.inj hlen)
    exact ⟨.nextw, rfl, rfl⟩
  · have hbs : bs.length = 8 := Nat.succ.inj hlen
    have haddr : (bs.take 4).length = 4 := by simp [hbs]
    have hcount : (bs.drop 4).length = 4 := by simp [hbs]
    refine ⟨.apply (leNat (bs.take 4)) (leNat (bs.drop 4)), ?_, congrArg (0x04#8 :: ·) ?_⟩
    · exact Bool.and_eq_true_iff.mpr
        ⟨decide_eq_true (leNat_lt_of_length haddr), decide_eq_true (leNat_lt_of_length hcount)⟩
    · rw [leBytes_leNat_of_length haddr, leBytes_leNat_of_length hcount, List.take_append_drop]
  · obtain rfl := List.eq_nil_of_length_eq_zero (Nat.succ.inj hlen)
    exact ⟨.release, rfl, rfl⟩

/-- R59: the decoder accepts exactly the encodings of well-formed commands. -/
theorem decode_eq_ok_iff {b : Packet} {i : Instr} : decode b = .ok i ↔ WellFormed i = true ∧ encode i = b := by
  constructor
  · intro hb
    have hne : b ≠ [] := by rintro rfl; cases hb
    have hop : 1 ≤ opcodeOf b ∧ opcodeOf b ≤ 5 := by
      by_contra hop
      cases (decode_illegal_opcode hne (by omega)).symm.trans hb
    have hlen : b.length = formatLength (opcodeOf b) := by
      by_contra hlen
      cases (decode_wrong_length hop.1 hop.2 hlen).symm.trans hb
    obtain ⟨j, hj, rfl⟩ := exists_encode_of_length hop.1 hop.2 hlen
    obtain rfl : j = i := Except.ok.inj ((decode_encode hj).symm.trans hb)
    exact ⟨hj, rfl⟩
  · rintro ⟨hi, rfl⟩
    exact decode_encode hi

theorem encode_injective_of_wellFormed {i j : Instr} (hi : WellFormed i = true) (hj : WellFormed j = true)
    (hij : encode i = encode j) : i = j :=
  Except.ok.inj <| calc
    Except.ok i = decode (encode i) := (decode_encode hi).symm
    _ = decode (encode j) := by rw [hij]
    _ = .ok j := decode_encode hj

/-! ## The illegal packets -/

/-- A legal opcode with a length that is not its own, written out by opcode (R61, R63). -/
theorem wrong_length_iff {b : Packet} :
    (1 ≤ opcodeOf b ∧ opcodeOf b ≤ 5 ∧ b.length ≠ formatLength (opcodeOf b)) ↔
      (opcodeOf b = 1 ∧ b.length ≠ 65) ∨ (opcodeOf b = 2 ∧ b.length ≠ 73) ∨ (opcodeOf b = 3 ∧ b.length ≠ 1) ∨
        (opcodeOf b = 4 ∧ b.length ≠ 9) ∨ (opcodeOf b = 5 ∧ b.length ≠ 1) := by
  simp only [formatLength, Config.LEN_K, Config.LEN_KO, Config.LEN_AL, Config.LEN_Z]
  constructor
  · rintro ⟨hlo, hhi, hlen⟩
    obtain hop | hop | hop | hop | hop :
        opcodeOf b = 1 ∨ opcodeOf b = 2 ∨ opcodeOf b = 3 ∨ opcodeOf b = 4 ∨ opcodeOf b = 5 := by omega
    all_goals simpa [hop] using hlen
  · rintro (⟨hop, hlen⟩ | ⟨hop, hlen⟩ | ⟨hop, hlen⟩ | ⟨hop, hlen⟩ | ⟨hop, hlen⟩) <;> simp [hop, hlen]

/-- R60, R61: the three ways in which a packet is illegal, each with its code. -/
theorem decode_eq_error_iff {b : Packet} {c : Code} : decode b = .error c ↔
    (c = .ERR_FORMAT ∧ b = []) ∨
    (c = .ERR_FORMAT ∧ b ≠ [] ∧ 1 ≤ opcodeOf b ∧ opcodeOf b ≤ 5 ∧ b.length ≠ formatLength (opcodeOf b)) ∨
    (c = .ERR_ILLEGAL_OP ∧ b ≠ [] ∧ (opcodeOf b = 0 ∨ 6 ≤ opcodeOf b)) := by
  constructor
  · intro hb
    by_cases hne : b = []
    · subst hne
      exact Or.inl ⟨(Except.error.inj hb).symm, rfl⟩
    by_cases hop : opcodeOf b = 0 ∨ 6 ≤ opcodeOf b
    · rw [decode_illegal_opcode hne hop] at hb
      exact Or.inr (Or.inr ⟨(Except.error.inj hb).symm, hne, hop⟩)
    have hlo : 1 ≤ opcodeOf b := by omega
    have hhi : opcodeOf b ≤ 5 := by omega
    by_cases hlen : b.length = formatLength (opcodeOf b)
    · obtain ⟨i, hi, rfl⟩ := exists_encode_of_length hlo hhi hlen
      cases (decode_encode hi).symm.trans hb
    · rw [decode_wrong_length hlo hhi hlen] at hb
      exact Or.inr (Or.inl ⟨(Except.error.inj hb).symm, hne, hlo, hhi, hlen⟩)
  · rintro (⟨rfl, rfl⟩ | ⟨rfl, -, hlo, hhi, hlen⟩ | ⟨rfl, hne, hop⟩)
    · exact decode_nil
    · exact decode_wrong_length hlo hhi hlen
    · exact decode_illegal_opcode hne hop

/-- Settles O1: the decoder reads back every encoding, and a packet of a legal opcode and length is one. -/
theorem decodeInvertsEncode : Obligations.DecodeInvertsEncode := by
  unfold Obligations.DecodeInvertsEncode
  refine ⟨fun _ _ => decode_eq_ok_iff, fun _ _ => encode_injective_of_wellFormed, fun b c => ?_,
    fun _ _ s hb => runPacket_error hb s⟩
  rw [decode_eq_error_iff, wrong_length_iff]

/-! ## The data of a response -/

/-- R67: every command that answers a next state responds, and only `NEXTW` with `OK` has data. -/
theorem exec_response_cases {i : Instr} {s t : State} (ht : exec i s = .next t) :
    (∃ c, t.response = some ⟨c, []⟩ ∧ (i = .nextw → c ≠ .OK)) ∨
    (i = .nextw ∧ t.response = some ⟨.OK, wordBytes (nextWord s).1⟩) := by
  cases i with
  | init key iv =>
    cases (exec_init key iv s).symm.trans ht
    exact Or.inl ⟨.OK, rfl, nofun⟩
  | initAt key iv offset =>
    cases (exec_initAt key iv offset s).symm.trans ht
    exact Or.inl ⟨.OK, rfl, nofun⟩
  | nextw =>
    obtain ⟨-, he⟩ | ⟨-, he⟩ := exec_nextw_cases s <;> cases he.symm.trans ht
    · exact Or.inl ⟨.ERR_NOT_INIT, rfl, nofun⟩
    · exact Or.inr ⟨rfl, rfl⟩
  | apply addr len =>
    obtain ⟨-, rfl⟩ | ⟨-, -, rfl⟩ | ⟨-, rfl⟩ := exec_apply_next ht
    · exact Or.inl ⟨.ERR_NOT_INIT, rfl, nofun⟩
    · exact Or.inl ⟨.ERR_RANGE, rfl, nofun⟩
    · exact Or.inl ⟨.OK, rfl, nofun⟩
  | release =>
    cases (exec_release s).symm.trans ht
    exact Or.inl ⟨.OK, rfl, nofun⟩

/-- The one packet of `NEXTW` (R52 format `Z`). -/
theorem eq_nextw_packet_iff {b : Packet} {i : Instr} (hb : decode b = .ok i) : b = [0x03#8] ↔ i = .nextw := by
  constructor
  · rintro rfl
    exact (Except.ok.inj hb).symm
  · rintro rfl
    exact (decode_eq_ok_iff.mp hb).2.symm

/-- Settles O15, by whether the packet decodes: a command responds as `exec_response_cases` says, a refusal has no data. -/
theorem onlyNextwReturnsData : Obligations.OnlyNextwReturnsData := by
  unfold Obligations.OnlyNextwReturnsData
  refine ⟨fun _ => rfl, fun s t b ht => ?_⟩
  cases hb : decode b with
  | ok i =>
    rw [runPacket_ok hb] at ht
    rw [ne_eq, eq_nextw_packet_iff hb]
    obtain ⟨c, hr, hc⟩ | ⟨hi, hr⟩ := exec_response_cases ht
    · exact ⟨_, hr, fun hi hok => absurd hok (hc hi), fun _ => rfl⟩
    · exact ⟨_, hr, fun _ _ => rfl, fun hor => absurd hor (by simp [hi])⟩
  | error c =>
    rw [runPacket_error hb, refuse_eq] at ht
    cases ht
    refine ⟨⟨c, []⟩, rfl, ?_, fun _ => rfl⟩
    rintro rfl
    cases hb

end Sys2Proof.Machine
end

section
/-! SUPPORT. Arithmetic (40_arith.md, rules R80 to R95): sums of words, and words as four bytes. -/

namespace Sys2Proof.Machine

/-! ## Sums of words -/

theorem toNat_add32 (ws : List Word) : (add32 ws).toNat = (ws.map BitVec.toNat).sum % 2 ^ 32 :=
  BitVec.toNat_ofNat ..

theorem add32_eq_of_perm {ws vs : List Word} (hp : ws.Perm vs) : add32 ws = add32 vs :=
  congrArg (BitVec.ofNat 32) (hp.map BitVec.toNat).sum_eq

@[simp] theorem add32_pair_zero (x : Word) : add32 [x, 0] = x := by
  simp [add32]

/-- Settles O17, by the sum of the terms as natural numbers, which no permutation changes. -/
theorem addIsSumModuloWord : Obligations.AddIsSumModuloWord := by
  unfold Obligations.AddIsSumModuloWord
  refine ⟨fun ws => ?_, fun _ _ => add32_eq_of_perm, by decide, by decide, add32_pair_zero, by decide⟩
  rw [toNat_add32, List.sum_eq_foldl]

/-! ## Words and bytes -/

/-- R84: the number that four bytes stand for is below `2^32`, so nothing wraps. -/
theorem toNat_le32 (b0 b1 b2 b3 : Byte) :
    (le32 b0 b1 b2 b3).toNat = b0.toNat + 256 * b1.toNat + 65536 * b2.toNat + 16777216 * b3.toNat := by
  rw [le32, BitVec.toNat_ofNat]
  omega

theorem toNat_byteOf (t : Nat) (w : Word) : (byteOf t w).toNat = (w.toNat >>> (8 * t)) % 2 ^ 8 :=
  BitVec.extractLsb'_toNat ..

/-- R85: the bytes of a word are its base-256 digits, and `le32` sums them by place. -/
@[simp] theorem le32_byteOf (w : Word) : le32 (byteOf 0 w) (byteOf 1 w) (byteOf 2 w) (byteOf 3 w) = w := by
  apply BitVec.eq_of_toNat_eq
  simp only [toNat_le32, toNat_byteOf, Nat.shiftRight_eq_div_pow]
  omega

/-- Settles O19, by the numbers that words and bytes stand for: masking with `0xff` is the remainder by `2^8`. -/
theorem wordsAreLittleEndian : Obligations.WordsAreLittleEndian := by
  unfold Obligations.WordsAreLittleEndian
  refine ⟨toNat_le32, fun t w _ => ?_, le32_byteOf, by decide, by decide, by decide⟩
  rw [toNat_byteOf]
  exact (Nat.and_two_pow_sub_one_eq_mod _ 8).symm

end Sys2Proof.Machine
end

section
/-! SUPPORT. The Table Initializer's scratch (41_init.md sections 1 and 2, rules R101 to R103): read after write on `W`,
what the packing and the recurrence write, and what they leave. -/

namespace Sys2Proof.Machine

/-! ## Read after write on W -/

theorem readScratch_writeScratch (w : Scratch) {i j : Nat} (hi : i < 2560) (hj : j < 2560) (v : Word) :
    readScratch (writeScratch w i v) j = if i = j then v else readScratch w j := by
  have hiff : Fin.ofNat 2560 i = Fin.ofNat 2560 j ↔ i = j := by
    rw [Fin.ext_iff]
    simp only [Fin.ofNat, Nat.mod_eq_of_lt hi, Nat.mod_eq_of_lt hj]
  rw [readScratch, writeScratch, Arr.get_set]
  simp only [hiff]
  rfl

/-! ## Packing the key and the IV (R101) -/

theorem readScratch_loadKeyIv_succ (key iv : Key) (w : Scratch) {n i : Nat} (hn : n < 8) (hi : i < 16) :
    readScratch (loadKeyIv key iv (n + 1) w) i =
      if 8 + n = i then keyWord iv n else if n = i then keyWord key n else readScratch (loadKeyIv key iv n w) i := by
  rw [loadKeyIv, readScratch_writeScratch _ (by omega) (by omega), readScratch_writeScratch _ (by omega) (by omega)]

theorem readScratch_loadKeyIv (key iv : Key) (w : Scratch) {n k : Nat} (hn : n ≤ 8) (hk : k < n) :
    readScratch (loadKeyIv key iv n w) k = keyWord key k ∧
      readScratch (loadKeyIv key iv n w) (8 + k) = keyWord iv k := by
  induction n with
  | zero => omega
  | succ n ih =>
    rw [readScratch_loadKeyIv_succ key iv w hn (by omega), readScratch_loadKeyIv_succ key iv w hn (by omega),
      if_neg (by omega : 8 + n ≠ k), if_neg (by omega : n ≠ 8 + k)]
    by_cases hnk : n = k
    · subst hnk
      exact ⟨if_pos rfl, if_pos rfl⟩
    · rw [if_neg hnk, if_neg (by omega : 8 + n ≠ 8 + k)]
      exact ih (by omega) (by omega)

/-! ## The recurrence (R102) -/

/-- The word at `i` is computed from words below `i` alone. -/
theorem scratchWord_congr {w w' : Scratch} {i : Nat} (hi : 16 ≤ i)
    (hbelow : ∀ j, j < i → readScratch w j = readScratch w' j) : scratchWord w i = scratchWord w' i := by
  rw [scratchWord, scratchWord, hbelow (i - 2) (by omega), hbelow (i - 7) (by omega), hbelow (i - 15) (by omega),
    hbelow (i - 16) (by omega)]

theorem readScratch_expandScratch_succ (w : Scratch) {n i : Nat} (hn : 16 + n < 2560) (hi : i < 2560) :
    readScratch (expandScratch (n + 1) w) i =
      if 16 + n = i then scratchWord (expandScratch n w) i else readScratch (expandScratch n w) i := by
  rw [expandScratch, Config.W_FIRST, readScratch_writeScratch _ hn hi]
  by_cases hni : 16 + n = i
  · rw [hni]
  · rw [if_neg hni, if_neg hni]

/-- Later steps leave the words below position `16 + m`, where `m` steps have come, as they are. -/
theorem readScratch_expandScratch_of_lt (w : Scratch) {m n i : Nat} (hmn : m ≤ n) (hn : 16 + n ≤ 2560)
    (hi : i < 16 + m) : readScratch (expandScratch n w) i = readScratch (expandScratch m w) i := by
  induction n, hmn using Nat.le_induction with
  | base => rfl
  | succ n hmn ih =>
    rw [readScratch_expandScratch_succ w (by omega) (by omega), if_neg (by omega), ih (by omega)]

/-- Each word is the recurrence over the finished scratch: no word it reads is written again. -/
theorem readScratch_expandScratch_eq_scratchWord (w : Scratch) {n i : Nat} (hn : 16 + n ≤ 2560) (hlo : 16 ≤ i)
    (hhi : i < 16 + n) : readScratch (expandScratch n w) i = scratchWord (expandScratch n w) i := by
  obtain ⟨m, rfl⟩ := Nat.exists_eq_add_of_le hlo
  calc readScratch (expandScratch n w) (16 + m)
      = readScratch (expandScratch (m + 1) w) (16 + m) := readScratch_expandScratch_of_lt w (by omega) hn (by omega)
    _ = scratchWord (expandScratch m w) (16 + m) := by
        rw [readScratch_expandScratch_succ w (by omega) (by omega), if_pos rfl]
    _ = scratchWord (expandScratch n w) (16 + m) :=
        scratchWord_congr hlo fun _ hj => (readScratch_expandScratch_of_lt w (by omega) hn hj).symm

/-- The recurrence runs up to the last word of `W` and not past it. -/
theorem w_first_add_steps : 16 + (Config.SCRATCH_LEN - Config.W_FIRST) = 2560 := by
  simp [Config.SCRATCH_LEN, Config.W_FIRST]

/-! ## The obligations -/

/-- Settles O28: the packing writes the 16 words, and the recurrence leaves them. -/
theorem scratchStartsWithKeyAndIv : Obligations.ScratchStartsWithKeyAndIv := by
  unfold Obligations.ScratchStartsWithKeyAndIv
  intro key iv s k hk
  have hkept : ∀ i, i < 16 →
      readScratch (buildScratch key iv s).W i = readScratch (loadKeyIv key iv 8 s.W) i := fun i hi => by
    rw [buildScratch_W, readScratch_expandScratch_of_lt _ (Nat.zero_le _) w_first_add_steps.le hi, expandScratch]
  rw [hkept k (by omega), hkept (8 + k) (by omega)]
  exact readScratch_loadKeyIv key iv s.W le_rfl hk

/-- Settles O29: the recurrence holds at the step that writes the word, and later steps keep every word it reads. -/
theorem scratchMeetsRecurrence : Obligations.ScratchMeetsRecurrence := by
  unfold Obligations.ScratchMeetsRecurrence
  intro key iv s i hlo hhi
  rw [buildScratch_W]
  exact readScratch_expandScratch_eq_scratchWord _ w_first_add_steps.le hlo (w_first_add_steps ▸ hhi)

/-- Settles O30: a position `t < 1024` is its own reduction, so the tables are read element by element. -/
theorem tablesAreScratchSlices : Obligations.TablesAreScratchSlices := by
  unfold Obligations.TablesAreScratchSlices
  intro s t ht
  have hval : (Fin.ofNat 1024 t).val = t := Nat.mod_eq_of_lt ht
  refine ⟨?_, ?_, fun i => ?_⟩
  · rw [loadTables_P, Arr.get_build, hval, Config.P_BASE]
  · rw [loadTables_Q, Arr.get_build, hval, Config.Q_BASE]
  · rw [wipeScratch_W, Arr.get_fill]

end Sys2Proof.Machine
end

section
/-! SUPPORT. The generator (42_nextword.md, rules R115 to R119): the feeder words that the mixing functions read, the
positions, what one half of `NextWord` writes and returns, and `index` after a number of calls. -/

namespace Sys2Proof.Machine

/-! ## The mixing functions by number (R86, R89 to R92) -/

/-- The words of a table are numbered modulo 1024. -/
theorem readTable_eq_get {k : BitVec 10} {n : Nat} (hk : k.toNat = n % 1024) (B : Table) :
    readTable B k = B.get (Fin.ofNat 1024 n) :=
  congrArg B.get (Fin.ext hk)

theorem toNat_low10 (x : Word) : (low10 x).toNat = x.toNat % 1024 := BitVec.toNat_setWidth ..

theorem toNat_byteIndex (t : Nat) (x : Word) : (byteIndex t x).toNat = (x.toNat >>> (8 * t)) &&& 0xff := by
  have hbyte : (byteIndex t x).toNat = (x.toNat >>> (8 * t)) % 2 ^ 8 % 2 ^ 10 := by
    rw [byteIndex, BitVec.toNat_setWidth, BitVec.extractLsb'_toNat]
  have hmask : (x.toNat >>> (8 * t)) &&& 0xff = (x.toNat >>> (8 * t)) % 2 ^ 8 := Nat.and_two_pow_sub_one_eq_mod _ 8
  omega

theorem g_eq_get (B : Table) (x y : Word) :
    g B x y = add32 [rotr x 10 ^^^ rotr y 23, B.get (Fin.ofNat 1024 ((x.toNat ^^^ y.toNat) % 1024))] := by
  have hlow : (low10 (x ^^^ y)).toNat = (x.toNat ^^^ y.toNat) % 1024 % 1024 := by
    rw [toNat_low10, BitVec.toNat_xor, Nat.mod_mod]
  rw [g, readTable_eq_get hlow, Config.G_ROT_X, Config.G_ROT_Y]

/-- The word that `h` reads in the quarter of the feeder that begins at `q`. -/
theorem readTable_add_byteIndex (B : Table) (q : BitVec 10) (t : Nat) (x : Word) :
    readTable B (q + byteIndex t x) = B.get (Fin.ofNat 1024 (q.toNat + ((x.toNat >>> (8 * t)) &&& 0xff))) := by
  refine readTable_eq_get ?_ B
  rw [BitVec.toNat_add, toNat_byteIndex]

theorem h_eq_get (B : Table) (x : Word) :
    h B x = add32 [B.get (Fin.ofNat 1024 (x.toNat &&& 0xff)),
      B.get (Fin.ofNat 1024 (256 + ((x.toNat >>> 8) &&& 0xff))),
      B.get (Fin.ofNat 1024 (512 + ((x.toNat >>> 16) &&& 0xff))),
      B.get (Fin.ofNat 1024 (768 + ((x.toNat >>> 24) &&& 0xff)))] := by
  have hlow : readTable B (byteIndex 0 x) = B.get (Fin.ofNat 1024 (x.toNat &&& 0xff)) := by
    simpa using readTable_add_byteIndex B 0 0 x
  rw [h, hlow, readTable_add_byteIndex, readTable_add_byteIndex, readTable_add_byteIndex]
  rfl

/-! ## The positions (R116) -/

/-- A step of 1024 is a whole turn of the ten position bits. -/
theorem posJ_add_1024 (i : BitVec 11) : posJ (i + 1024) = posJ i := by
  unfold posJ
  bv_omega

/-- The output's first term is not the word just written. -/
theorem posJ12_ne_posJ (i : BitVec 11) : posJ12 i ≠ posJ i := by
  unfold posJ12 posJ
  bv_omega

/-! ## One half of NextWord (R117, R118) -/

/-- The sum that one half with active table `A` and feeder `B` writes at `posJ i`. -/
def newWord (A B : Table) (i : BitVec 11) : Word :=
  add32 [readTable A (posJ i), readTable A (posJ10 i), g B (readTable A (posJ3 i)) (readTable A (posJ1023 i))]

theorem readTable_halfStep (A B : Table) (i : BitVec 11) (k : BitVec 10) :
    readTable (halfStep A B i).2 k = if k = posJ i then newWord A B i else readTable A k := by
  simp only [eq_comm (a := k)]
  exact readTable_writeTable A (posJ i) k (newWord A B i)

theorem halfStep_output (A B : Table) (i : BitVec 11) :
    (halfStep A B i).1 = h B (readTable A (posJ12 i)) ^^^ newWord A B i := by
  calc (halfStep A B i).1
      = h B (readTable (halfStep A B i).2 (posJ12 i)) ^^^ readTable (halfStep A B i).2 (posJ i) := rfl
    _ = h B (readTable A (posJ12 i)) ^^^ newWord A B i := by
        rw [readTable_halfStep, readTable_halfStep, if_neg (posJ12_ne_posJ i), if_pos rfl]

theorem activeIsP_of_lt {s : State} (hi : s.index.toNat < 1024) : activeIsP s = true := decide_eq_true hi

theorem activeIsP_of_ge {s : State} (hi : 1024 ≤ s.index.toNat) : activeIsP s = false :=
  decide_eq_false (Nat.not_lt.mpr hi)

/-- Settles O23: by the active table, each half is `halfStep`, whose mixing functions are those written out over `B`. -/
theorem nextWordHalves : Obligations.NextWordHalves := by
  unfold Obligations.NextWordHalves
  constructor
  · intro i
    refine ⟨posJ_add_1024 i, ?_, ?_, ?_, ?_⟩
    · exact (congrArg posJ (add_sub_right_comm i 1024 3)).trans (posJ_add_1024 _)
    · exact (congrArg posJ (add_sub_right_comm i 1024 10)).trans (posJ_add_1024 _)
    · exact (congrArg posJ (add_sub_right_comm i 1024 12)).trans (posJ_add_1024 _)
    · exact (congrArg posJ (add_right_comm i 1024 1)).trans (posJ_add_1024 _)
  · intro s
    simp only [← g_eq_get, ← h_eq_get]
    constructor
    · intro hi
      rw [nextWord_of_active_P (activeIsP_of_lt hi)]
      exact ⟨halfStep_output .., rfl, readTable_halfStep _ _ _⟩
    · intro hi
      rw [nextWord_of_active_Q (activeIsP_of_ge hi)]
      exact ⟨halfStep_output .., rfl, readTable_halfStep _ _ _⟩

/-! ## index (R119) -/

@[simp] theorem skip_index (n : Nat) (s : State) : (skip n s).index = s.index + BitVec.ofNat 11 n := by
  induction n with
  | zero => exact (BitVec.add_zero _).symm
  | succ n ih =>
    rw [skip_succ_last, nextWord_index, ih, BitVec.ofNat_add, BitVec.add_assoc]
    rfl

theorem toNat_skip_index (n : Nat) (s : State) : (skip n s).index.toNat = (s.index.toNat + n) % 2048 := by
  rw [skip_index, BitVec.toNat_add, BitVec.toNat_ofNat, Nat.add_mod_mod]

/-- Settles O24: `index` after `n` calls, by induction on `n`, gives the other clauses. -/
theorem indexAfterWords : Obligations.IndexAfterWords := by
  unfold Obligations.IndexAfterWords
  refine ⟨toNat_skip_index, fun s hs => ?_, fun s => ?_, fun s => ?_⟩
  · calc (nextWord s).2.index.toNat = (s.index.toNat + 1) % 2048 := toNat_skip_index 1 s
      _ = 0 := by rw [hs]
  · rw [activeIsP, activeIsP, toNat_skip_index, ← decide_not, decide_eq_decide]
    omega
  · rw [skip_index]
    exact BitVec.add_zero _

end Sys2Proof.Machine
end

section
/-! SUPPORT. `APPLY` (43_apply.md, rules R131 to R141): admission, the byte and the carry an admitted call leaves at each
position, and the word its tail draws. -/

namespace Sys2Proof.Machine

/-! ## Admission (R131) -/

/-- A range that ends in the space, its end at `2^32` included, and lies in ordinary memory is carried out. -/
theorem exec_apply_responds_ok {s : State} {addr len : Nat} (ha : Admitted s addr len) :
    ∃ t, exec (.apply addr len) s = .next t ∧ t.response = some ⟨.OK, []⟩ :=
  ⟨_, exec_apply_admitted ha, withResponse_response ..⟩

/-- An empty range meets no region, so below the top of the space only `ST` can refuse it. -/
theorem admitted_zero_len {s : State} {addr : Nat} (hs : s.ST = .READY) (haddr : addr ≤ Config.BUF_SIZE) :
    Admitted s addr 0 :=
  ⟨hs, haddr, ordinaryRange_zero_len s addr⟩

/-- Settles O38, by the branch of `execApply` that each clause selects. -/
theorem applyAdmission : Obligations.ApplyAdmission := by
  unfold Obligations.ApplyAdmission
  exact ⟨fun _ addr len hs => exec_apply_empty hs addr len, fun _ _ _ hs hr => exec_apply_range hs hr,
    fun _ _ _ hs hr ho => exec_apply_responds_ok ⟨hs, hr, ho⟩,
    fun _ _ hs haddr => exec_apply_responds_ok (admitted_zero_len hs haddr.le)⟩

/-! ## The stream and the counts of one call (R133, R136, R141) -/

/-- Past the carry the stream is the words still to be drawn, four bytes each. -/
theorem streamByte_past_carry (s : State) {m t : Nat} (ht : t < 4) :
    streamByte s (s.pendingCount.toNat + (4 * m + t)) = byteOf t (wordAt m s) := by
  have hpast : ¬ s.pendingCount.toNat + (4 * m + t) < s.pendingCount.toNat := by omega
  have hbyte : (4 * m + t) % 4 = t := by omega
  have hword : (4 * m + t) / 4 = m := by omega
  simp only [streamByte, if_neg hpast, Nat.add_sub_cancel_left, hbyte, hword]

theorem wordsDrawn_of_le {c len : Nat} (hle : len ≤ c) : wordsDrawn c len = 0 := if_pos hle

theorem wordsDrawn_of_lt {c len : Nat} (hlt : c < len) : wordsDrawn c len = (len - c + 3) / 4 :=
  if_neg (Nat.not_le.mpr hlt)

theorem countAfter_of_le {c len : Nat} (hle : len ≤ c) : countAfter c len = c - len := if_pos hle

theorem countAfter_of_lt {c len : Nat} (hlt : c < len) : countAfter c len = (4 - (len - c) % 4) % 4 :=
  if_neg (Nat.not_le.mpr hlt)

/-! ## The bytes of the range (R130) -/

theorem read_applyStream {s : State} {addr len k : Nat} (hwf : Memory.wf s.buf = true)
    (hr : addr + len ≤ Config.BUF_SIZE) (hk : k < len) :
    Memory.read (applyStream addr len s).buf (addr + k) = Memory.read s.buf (addr + k) ^^^ streamByte s k := by
  have hlength := length_listFrom (streamByte s) 0 len
  obtain ⟨-, hread⟩ := xorRun_spec (listFrom (streamByte s) 0 len) hwf (by rw [hlength]; exact hr)
  rw [applyStream_buf, hread, if_pos (by omega), Nat.add_sub_cancel_left, getD_listFrom _ _ _ _ _ hk, Nat.zero_add]

/-! ## The carry (R15, R134, R139, R140) -/

theorem pendingClean_iff {s : State} :
    PendingClean s ↔ ∀ p, p < 3 - s.pendingCount.toNat → carryAt s.pendingBytes p = 0 := by
  constructor
  · intro hclean p hp
    rw [← hclean ⟨p, by omega⟩ hp, get_eq_carryAt]
  · intro hclean p hp
    rw [get_eq_carryAt, hclean p hp]

/-- R15 for the phases of `APPLY`: a position below the bytes now pending was clear before, or was drained or cleared. -/
theorem pendingClean_applyStream {s : State} (hclean : PendingClean s) (addr len : Nat) :
    PendingClean (applyStream addr len s) := by
  rw [pendingClean_iff] at hclean ⊢
  intro p hp
  rw [applyStream_count_toNat] at hp
  rw [applyStream_carryAt _ _ _ (by omega), if_neg (by omega)]
  split_ifs with hcleared hdrained
  · rfl
  · rfl
  · exact hclean p (by omega)

theorem pendingBytes_eq_zero_of_count {s : State} (hclean : PendingClean s) (hcount : s.pendingCount = 0) :
    s.pendingBytes = Arr.fill 3 0 := by
  refine carry_ext fun p hp => ?_
  rw [carryAt_fill]
  exact pendingClean_iff.mp hclean p (by simpa [hcount] using hp)

/-! ## A call that the carry serves (R135) -/

/-- With nothing to drain the count is written back as it was. -/
theorem applyStream_zero_len (addr : Nat) (s : State) : applyStream addr 0 s = s := by
  rw [applyStream_early (Nat.zero_le _), drain, Nat.sub_zero, BitVec.ofNat_toNat, BitVec.setWidth_eq]
  rfl

/-- Settles O41: up to the length of the carry no word is drawn, and a clean carry with no byte pending is zero. -/
theorem applyEarlyEnd : Obligations.ApplyEarlyEnd := by
  unfold Obligations.ApplyEarlyEnd
  intro s addr len ha hle
  have hgen : SameGen (applyStream addr len s) s := by
    simpa only [wordsDrawn_of_le hle, skip_zero] using applyStream_sameGen addr len s
  have hcount : (applyStream addr len s).pendingCount.toNat = s.pendingCount.toNat - len := by
    rw [applyStream_count_toNat, countAfter_of_le hle]
  obtain ⟨hP, hQ, hindex⟩ := (sameGen_withResponse (some ⟨.OK, []⟩) _).trans hgen
  refine ⟨_, exec_apply_admitted ha, withResponse_response .., hindex, hP, hQ, ?_, ?_, fun _ hall hclean => ?_⟩
  · rw [withResponse_pendingCount, hcount]
  · rintro rfl
    rw [applyStream_zero_len]
    rfl
  · have hzero : (applyStream addr len s).pendingCount = 0 :=
      BitVec.eq_of_toNat_eq (by rw [hcount, hall, Nat.sub_self]; rfl)
    rw [withResponse_pendingCount, withResponse_pendingBytes]
    exact ⟨hzero, pendingBytes_eq_zero_of_count (pendingClean_applyStream hclean addr len) hzero⟩

/-! ## The tail (R138 to R140) -/

/-- The carry keeps the last `4 − r` bytes of the word that the tail drew, above zeros. -/
theorem applyStream_pendingBytes_tail {s : State} {addr len : Nat} (hclean : PendingClean s)
    (hlt : s.pendingCount.toNat < len) (hr : (len - s.pendingCount.toNat) % 4 ≠ 0) :
    (applyStream addr len s).pendingBytes =
      keepTail ((len - s.pendingCount.toNat) % 4) (wordAt ((len - s.pendingCount.toNat) / 4) s) (Arr.fill 3 0) := by
  have hcount := countAfter_of_lt hlt
  refine carry_ext fun p hp => ?_
  rw [carryAt_keepTail _ _ _ hp, carryAt_fill]
  by_cases hkept : (len - s.pendingCount.toNat) % 4 ≤ p + 1
  · rw [if_pos hkept, applyStream_carryAt _ _ _ hp, if_pos (by omega), ← streamByte_past_carry s (by omega)]
    congr 1
    omega
  · rw [if_neg hkept]
    refine pendingClean_iff.mp (pendingClean_applyStream hclean addr len) p ?_
    rw [applyStream_count_toNat]
    omega

/-- The last `r` bytes of the range are XORed with the first `r` bytes of the word that the tail drew. -/
theorem read_applyStream_tail {s : State} {addr len n : Nat} (hwf : Memory.wf s.buf = true)
    (hr : addr + len ≤ Config.BUF_SIZE) (hlt : s.pendingCount.toNat < len)
    (hn : n < (len - s.pendingCount.toNat) % 4) :
    Memory.read (applyStream addr len s).buf (addr + (len - (len - s.pendingCount.toNat) % 4) + n) =
      Memory.read s.buf (addr + (len - (len - s.pendingCount.toNat) % 4) + n) ^^^
        byteOf n (wordAt ((len - s.pendingCount.toNat) / 4) s) := by
  have hplace : len - (len - s.pendingCount.toNat) % 4 + n =
      s.pendingCount.toNat + (4 * ((len - s.pendingCount.toNat) / 4) + n) := by omega
  rw [Nat.add_assoc, hplace, read_applyStream hwf hr (by omega), streamByte_past_carry s (by omega)]

/-- Settles O42, by `r`: `r = 0` leaves no byte pending, so a clean carry is zero; the other rows are `keepTail`. -/
theorem applyTailKeepsCarry : Obligations.ApplyTailKeepsCarry := by
  unfold Obligations.ApplyTailKeepsCarry
  intro s addr len ha hclean hwf hlt rest w tail
  have ⟨_, hrange, _⟩ := ha
  have hgen : SameGen (withResponse (some ⟨.OK, []⟩) (applyStream addr len s)) (skip ((rest + 3) / 4) s) := by
    rw [← wordsDrawn_of_lt hlt]
    exact (sameGen_withResponse ..).trans (applyStream_sameGen addr len s)
  have hcount : (applyStream addr len s).pendingCount = BitVec.ofNat 2 ((4 - rest % 4) % 4) := by
    rw [applyStream_pendingCount, countAfter_of_lt hlt]
  have hbytes : rest % 4 ≠ 0 → (applyStream addr len s).pendingBytes = keepTail (rest % 4) w (Arr.fill 3 0) :=
    applyStream_pendingBytes_tail hclean hlt
  refine ⟨_, exec_apply_admitted ha, fun hr => ?_, fun hr => ?_,
    fun n hn => read_applyStream_tail hwf hrange hlt hn, fun hr => ?_, fun hr => ?_, fun hr => ?_⟩
  · have hwords : (rest + 3) / 4 = rest / 4 := by omega
    have hzero : (applyStream addr len s).pendingCount = 0 := by rw [hcount, hr]; rfl
    rw [withResponse_pendingBytes, pendingBytes_eq_zero_of_count (pendingClean_applyStream hclean addr len) hzero]
    exact ⟨hwords ▸ hgen, rfl, hzero⟩
  · have hwords : (rest + 3) / 4 = rest / 4 + 1 := by omega
    exact hwords ▸ hgen
  all_goals
    rw [withResponse_pendingBytes, withResponse_pendingCount, hbytes (by omega), hcount, hr]
    exact ⟨rfl, rfl⟩

end Sys2Proof.Machine
end

section
/-! SUPPORT. `INITAT`'s seek (44_seek.md, rules R150 to R152): what it leaves at a word boundary and inside a word. -/

namespace Sys2Proof.Machine

/-- R151: an offset at a word boundary drops whole words and nothing else. -/
theorem seek_of_aligned {offset : Nat} (hrem : offset % 4 = 0) (s : State) : seek offset s = skip (offset / 4) s := by
  rw [seek, hrem, seekTail, if_pos rfl]

/-- R152: inside a word, one word more is drawn, and its last bytes are stored. -/
theorem seek_of_partial {offset : Nat} (hrem : offset % 4 ≠ 0) (s : State) :
    seek offset s = storeCarry (offset % 4) (wordAt (offset / 4) s) (skip (offset / 4 + 1) s) := by
  rw [seek, seekTail, if_neg hrem, skip_succ_last, wordAt]

theorem sameGen_setReady (s : State) : SameGen (setReady s) s := ⟨by simp, by simp, by simp⟩

theorem seek_sameGen_of_aligned {offset : Nat} (hrem : offset % 4 = 0) (s : State) :
    SameGen (seek offset s) (skip (offset / 4) s) := by
  rw [seek_of_aligned hrem]
  exact SameGen.refl _

theorem seek_sameGen_of_partial {offset : Nat} (hrem : offset % 4 ≠ 0) (s : State) :
    SameGen (seek offset s) (skip (offset / 4 + 1) s) := by
  rw [seek_of_partial hrem]
  exact sameGen_storeCarry ..

/-- Settles O35, by `rem`: at a boundary the cleared carry of `TableInit` stays; the other rows are `keepTail` over it. -/
theorem seekKeepsTrailingBytes : Obligations.SeekKeepsTrailingBytes := by
  unfold Obligations.SeekKeepsTrailingBytes
  intro key iv offset s w
  have hgen : SameGen (withResponse (some ⟨.OK, []⟩) (setReady (seek offset (tableInit key iv s))))
      (seek offset (tableInit key iv s)) :=
    (sameGen_withResponse ..).trans (sameGen_setReady _)
  have hbytes : offset % 4 ≠ 0 →
      (seek offset (tableInit key iv s)).pendingBytes = keepTail (offset % 4) w (Arr.fill 3 0) := fun hrem => by
    rw [seek_of_partial hrem, storeCarry_pendingBytes, skip_pendingBytes, tableInit_pendingBytes]
  have hcount : offset % 4 ≠ 0 →
      (seek offset (tableInit key iv s)).pendingCount = BitVec.ofNat 2 (4 - offset % 4) := fun hrem => by
    rw [seek_of_partial hrem, storeCarry_pendingCount]
  refine ⟨_, exec_initAt .., fun hrem => ⟨hgen.trans (seek_sameGen_of_aligned hrem _), ?_⟩,
    fun hrem => hgen.trans (seek_sameGen_of_partial hrem _), fun hrem => ?_, fun hrem => ?_, fun hrem => ?_⟩
  all_goals rw [withResponse_pendingBytes, withResponse_pendingCount, setReady_pendingBytes, setReady_pendingCount]
  · rw [seek_of_aligned hrem, skip_pendingBytes, skip_pendingCount, tableInit_pendingBytes, tableInit_pendingCount]
    exact ⟨rfl, rfl⟩
  all_goals
    rw [hbytes (by omega), hcount (by omega), hrem]
    exact ⟨rfl, rfl⟩

end Sys2Proof.Machine
end

section
/-! SUPPORT. Refusals (60_exceptions.md, rules R186 to R193): the cause that R193 puts first, by what the packet decodes
to, and the response and next state that it selects. -/

namespace Sys2Proof.Machine

/-! ## Illegal packets (R188, R189) -/

/-- Settles O3: the decoder answers such a packet by its opcode alone, and a refusal changes the response only. -/
theorem illegalOpcodePacketRefused : Obligations.IllegalOpcodePacketRefused := by
  unfold Obligations.IllegalOpcodePacketRefused
  intro s op bs hop
  exact runPacket_error (decode_illegal_opcode (List.cons_ne_nil op bs) hop) s

/-- Settles O4: the decoder answers the empty packet and a wrong length alike, and a refusal changes the response only. -/
theorem wrongLengthPacketRefused : Obligations.WrongLengthPacketRefused := by
  unfold Obligations.WrongLengthPacketRefused
  rintro s b (rfl | hwrong)
  · exact runPacket_error decode_nil s
  · obtain ⟨hlo, hhi, hlen⟩ := wrong_length_iff.mpr hwrong
    exact runPacket_error (decode_wrong_length hlo hhi hlen) s

/-! ## The first cause by what the packet decodes to (R193) -/

theorem decode_error_ne_ok {b : Packet} {c : Code} (hb : decode b = .error c) : c ≠ .OK := by
  obtain ⟨rfl, -⟩ | ⟨rfl, -⟩ | ⟨rfl, -⟩ := decode_eq_error_iff.mp hb <;> decide

/-- The decoder's causes come before those that read the state, in the decoder's own order. -/
theorem firstCause_of_decode_error {b : Packet} {c : Code} (hb : decode b = .error c) (s : State) :
    firstCause b s = c := by
  obtain ⟨rfl, hnil⟩ | ⟨rfl, hne, hlo, hhi, hlen⟩ | ⟨rfl, hne, hop⟩ := decode_eq_error_iff.mp hb
  · rw [firstCause, if_pos hnil]
  · rw [firstCause, if_neg hne, if_neg (by omega), if_pos hlen]
  · rw [firstCause, if_neg hne, if_pos (by omega)]

@[simp] theorem firstCause_encode_init (key iv : Key) (s : State) : firstCause (encode (.init key iv)) s = .OK := by
  simp [firstCause, encode, formatLength]

@[simp] theorem firstCause_encode_initAt (key iv : Key) (offset : Nat) (s : State) :
    firstCause (encode (.initAt key iv offset)) s = .OK := by
  simp [firstCause, encode, formatLength]

@[simp] theorem firstCause_encode_release (s : State) : firstCause (encode .release) s = .OK := by
  simp [firstCause, encode, formatLength]

theorem firstCause_encode_nextw (s : State) :
    firstCause (encode .nextw) s = if s.ST = .EMPTY then .ERR_NOT_INIT else .OK := by
  simp [firstCause, encode, formatLength]

theorem firstCause_encode_apply {addr len : Nat} (hi : WellFormed (.apply addr len) = true) (s : State) :
    firstCause (encode (.apply addr len)) s =
      if s.ST = .EMPTY then .ERR_NOT_INIT else if Config.BUF_SIZE < addr + len then .ERR_RANGE else .OK := by
  simp only [WellFormed, Bool.and_eq_true, decide_eq_true_eq] at hi
  obtain ⟨haddr, hlen⟩ := hi
  have hreadAddr : leNat (((encode (.apply addr len)).drop 1).take 4) = addr :=
    (leNat_leBytes 4 addr).trans (Nat.mod_eq_of_lt haddr)
  have hreadLen : leNat (((encode (.apply addr len)).drop 5).take 4) = len :=
    (leNat_leBytes 4 len).trans (Nat.mod_eq_of_lt hlen)
  rw [firstCause, hreadAddr, hreadLen]
  simp [encode, formatLength]

/-! ## What the first cause selects (R186, R193) -/

/-- The answer of a block in state `s` whose first cause is `c`: the command is done, or only the response changes. -/
def AnswersCause (c : Code) (s t : State) : Prop :=
  (c = .OK ∧ ∃ d, t.response = some ⟨.OK, d⟩) ∨ (c ≠ .OK ∧ t = withResponse (some ⟨c, []⟩) s)

theorem answersCause_ok {s t : State} {c : Code} {d : List Byte} (hc : c = .OK) :
    AnswersCause c s (withResponse (some ⟨.OK, d⟩) t) :=
  Or.inl ⟨hc, d, withResponse_response ..⟩

theorem answersCause_refusal {s : State} {c c' : Code} (hc : c = c') (hne : c' ≠ .OK) :
    AnswersCause c s (withResponse (some ⟨c', []⟩) s) := by
  subst hc
  exact Or.inr ⟨hne, rfl⟩

theorem AnswersCause.response {s t : State} {c : Code} (ht : AnswersCause c s t) :
    ∃ d, t.response = some ⟨c, d⟩ := by
  obtain ⟨rfl, hd⟩ | ⟨-, rfl⟩ := ht
  · exact hd
  · exact ⟨[], withResponse_response ..⟩

/-- A well-formed command meets its causes in the order in which `firstCause` tests them. -/
theorem exec_answersCause {i : Instr} (hi : WellFormed i = true) {s t : State} (ht : exec i s = .next t) :
    AnswersCause (firstCause (encode i) s) s t := by
  cases i with
  | init key iv =>
    cases (exec_init key iv s).symm.trans ht
    exact answersCause_ok (firstCause_encode_init ..)
  | initAt key iv offset =>
    cases (exec_initAt key iv offset s).symm.trans ht
    exact answersCause_ok (firstCause_encode_initAt ..)
  | nextw =>
    obtain ⟨hs, he⟩ | ⟨hs, he⟩ := exec_nextw_cases s <;> cases he.symm.trans ht
    · exact answersCause_refusal (by simp [firstCause_encode_nextw, hs]) nofun
    · exact answersCause_ok (by simp [firstCause_encode_nextw, hs])
  | apply addr len =>
    have hcause := firstCause_encode_apply hi s
    obtain ⟨hs, rfl⟩ | ⟨hs, hr, rfl⟩ | ⟨⟨hs, hr, -⟩, rfl⟩ := exec_apply_next ht
    · exact answersCause_refusal (by simp [hcause, hs]) nofun
    · exact answersCause_refusal (by simp [hcause, hs, hr]) nofun
    · exact answersCause_ok (by simp [hcause, hs, hr])
  | release =>
    cases (exec_release s).symm.trans ht
    exact answersCause_ok (firstCause_encode_release ..)

theorem runPacket_answersCause {b : Packet} {s t : State} (ht : runPacket b s = .next t) :
    AnswersCause (firstCause b s) s t := by
  cases hb : decode b with
  | ok i =>
    rw [runPacket_ok hb] at ht
    obtain ⟨hi, rfl⟩ := decode_eq_ok_iff.mp hb
    exact exec_answersCause hi ht
  | error c =>
    cases (runPacket_error hb s).symm.trans ht
    exact answersCause_refusal (firstCause_of_decode_error hb s) (decode_error_ne_ok hb)

/-- Settles O13: a response other than `OK` leaves the refusing branch of `AnswersCause`. -/
theorem refusalChangesNothing : Obligations.RefusalChangesNothing := by
  unfold Obligations.RefusalChangesNothing
  intro s t b r ht hr hne
  obtain ⟨-, d, hd⟩ | ⟨-, rfl⟩ := runPacket_answersCause ht
  · cases hr.symm.trans hd
    exact absurd rfl hne
  · cases hr
    rfl

/-- Settles O14: the response carries the first cause; the three packets of R193 are decided by opcode, `ST` and length. -/
theorem firstCauseIsReported : Obligations.FirstCauseIsReported := by
  unfold Obligations.FirstCauseIsReported
  refine ⟨fun _ _ _ ht => (runPacket_answersCause ht).response, fun s => ⟨?_, fun hs => ?_, fun bs hbs _ => ?_⟩⟩
  · exact firstCause_of_decode_error rfl s
  · rw [firstCause_encode_apply rfl, if_pos hs]
  · have hlen : (0x04#8 :: bs).length ≠ Config.LEN_AL := by simp [hbs]
    have hdecode : decode (0x04#8 :: bs) = .error .ERR_FORMAT := if_neg hlen
    exact firstCause_of_decode_error hdecode s

end Sys2Proof.Machine
end

section
/-! SUPPORT. What an admitted `APPLY` leaves (43_apply.md, rules R130 to R141): the bytes of `BUF`, the stream after it,
and that two calls on adjoining ranges are one. -/

namespace Sys2Proof.Machine

/-! ## Two states with the same block -/

theorem sameGen_of_sameBlock {s t : State} (hst : SameBlock s t) : SameGen s t := by
  obtain ⟨hP, hQ, -, hindex, -⟩ := hst
  exact ⟨hP, hQ, hindex⟩

theorem sameBlock_refl (s : State) : SameBlock s s := ⟨rfl, rfl, rfl, rfl, rfl, rfl, rfl⟩

theorem sameBlock_withResponse (r : Option Response) (s : State) : SameBlock (withResponse r s) s := by
  simp [SameBlock]

theorem sameBlock_withBuf (m : Memory) (s : State) : SameBlock (withBuf m s) s := by simp [SameBlock]

theorem sameBlock_symm {s t : State} (hst : SameBlock s t) : SameBlock t s := by
  obtain ⟨hP, hQ, hW, hindex, hbytes, hcount, hST⟩ := hst
  exact ⟨hP.symm, hQ.symm, hW.symm, hindex.symm, hbytes.symm, hcount.symm, hST.symm⟩

theorem sameBlock_trans {s t u : State} (hst : SameBlock s t) (htu : SameBlock t u) : SameBlock s u := by
  obtain ⟨hP, hQ, hW, hindex, hbytes, hcount, hST⟩ := hst
  obtain ⟨kP, kQ, kW, kindex, kbytes, kcount, kST⟩ := htu
  exact ⟨hP.trans kP, hQ.trans kQ, hW.trans kW, hindex.trans kindex, hbytes.trans kbytes, hcount.trans kcount,
    hST.trans kST⟩

theorem sameBlock_streamByte {s t : State} (hst : SameBlock s t) (k : Nat) : streamByte s k = streamByte t k := by
  have hgen := sameGen_of_sameBlock hst
  obtain ⟨-, -, -, -, hbytes, hcount, -⟩ := hst
  simp only [streamByte, hbytes, hcount, hgen.wordAt]

/-- Clean carries with equal counts are equal when the streams they begin agree. -/
theorem pendingBytes_eq_of_streamByte {s t : State} (hs : PendingClean s) (ht : PendingClean t)
    (hcount : s.pendingCount = t.pendingCount) (hstream : ∀ k, streamByte s k = streamByte t k) :
    s.pendingBytes = t.pendingBytes := by
  refine carry_ext fun p hp => ?_
  by_cases hvalid : p < 3 - s.pendingCount.toNat
  · rw [pendingClean_iff.mp hs p hvalid, pendingClean_iff.mp ht p (hcount ▸ hvalid)]
  · have hk := hstream (p - (3 - s.pendingCount.toNat))
    have hlt : p - (3 - s.pendingCount.toNat) < s.pendingCount.toNat := by omega
    have hp' : 3 - s.pendingCount.toNat + (p - (3 - s.pendingCount.toNat)) = p := by omega
    simpa only [streamByte, ← hcount, if_pos hlt, hp'] using hk

/-! ## BUF (R130) -/

/-- Everything an admitted call does to `BUF`: the canonical form stays, byte `k` of the range is XORed with stream byte
`k`, every other byte stays. -/
theorem applyStream_buf_spec {s : State} {addr len : Nat} (hwf : Memory.wf s.buf = true)
    (hr : addr + len ≤ Config.BUF_SIZE) :
    Memory.wf (applyStream addr len s).buf = true ∧
    ∀ a, Memory.read (applyStream addr len s).buf a =
      if addr ≤ a ∧ a < addr + len then Memory.read s.buf a ^^^ streamByte s (a - addr) else Memory.read s.buf a := by
  have hlength := length_listFrom (streamByte s) 0 len
  obtain ⟨hwf', hread⟩ := xorRun_spec (listFrom (streamByte s) 0 len) hwf (by rw [hlength]; exact hr)
  rw [applyStream_buf]
  refine ⟨hwf', fun a => ?_⟩
  rw [hread, hlength]
  by_cases hin : addr ≤ a ∧ a < addr + len
  · rw [if_pos hin, if_pos hin, getD_listFrom _ _ _ _ _ (by omega), Nat.zero_add]
  · rw [if_neg hin, if_neg hin]

theorem read_applyStream_outside {s : State} {addr len a : Nat} (hwf : Memory.wf s.buf = true)
    (hr : addr + len ≤ Config.BUF_SIZE) (ha : a < addr ∨ addr + len ≤ a) :
    Memory.read (applyStream addr len s).buf a = Memory.read s.buf a := by
  rw [(applyStream_buf_spec hwf hr).2, if_neg (by omega)]

/-- Settles O39: the bytes by the run of the three phases, the other elements by its frame. -/
theorem applyXorsStream : Obligations.ApplyXorsStream := by
  unfold Obligations.ApplyXorsStream
  intro s addr len ha hwf
  have ⟨hs, hr, _⟩ := ha
  obtain ⟨hST, hW, hplatform, hinputs, -⟩ := applyStream_frame addr len s
  exact ⟨_, exec_apply_admitted ha, fun _ hk => read_applyStream hwf hr hk,
    fun _ hout => read_applyStream_outside hwf hr hout, hST.trans hs, hW, hplatform, hinputs, rfl⟩

/-! ## The stream after a call (R132, R141) -/

/-- The bytes delivered and left pending are those that were pending and those of the words drawn. -/
theorem len_add_countAfter (c len : Nat) : len + countAfter c len = c + 4 * wordsDrawn c len := by
  unfold countAfter wordsDrawn
  split_ifs <;> omega

theorem streamByte_applyStream (addr len k : Nat) (s : State) :
    streamByte (applyStream addr len s) k = streamByte s (len + k) := by
  have hcount := applyStream_count_toNat addr len s
  have hbalance := len_add_countAfter s.pendingCount.toNat len
  have hcount3 := pendingCount_le (applyStream addr len s)
  by_cases hk : k < (applyStream addr len s).pendingCount.toNat
  · rw [streamByte]
    simp only [if_pos hk]
    rw [applyStream_carryAt _ _ _ (by omega), if_pos (by omega)]
    congr 1
    omega
  · obtain ⟨n, rfl⟩ := Nat.exists_eq_add_of_le (Nat.le_of_not_lt hk)
    have hold : len + ((applyStream addr len s).pendingCount.toNat + n) =
        s.pendingCount.toNat + (4 * (wordsDrawn s.pendingCount.toNat len + n / 4) + n % 4) := by omega
    rw [hold, streamByte_past_carry s (by omega)]
    conv_lhs => rw [← Nat.div_add_mod n 4]
    rw [streamByte_past_carry _ (by omega), (applyStream_sameGen addr len s).wordAt, wordAt_skip]

/-- Settles O44: the response is no part of the stream. -/
theorem applyAdvancesStream : Obligations.ApplyAdvancesStream := by
  unfold Obligations.ApplyAdvancesStream
  intro s addr len ha
  exact ⟨_, exec_apply_admitted ha, fun k =>
    (sameBlock_streamByte (sameBlock_withResponse _ _) k).trans (streamByte_applyStream addr len k s)⟩

/-- Settles O40, by whether the carry serves the call. -/
theorem applyDrawsWords : Obligations.ApplyDrawsWords := by
  unfold Obligations.ApplyDrawsWords
  intro s addr len ha c
  have hgen : SameGen (withResponse (some ⟨.OK, []⟩) (applyStream addr len s)) (skip (wordsDrawn c len) s) :=
    (sameGen_withResponse ..).trans (applyStream_sameGen addr len s)
  refine ⟨_, exec_apply_admitted ha, fun hle => ?_, fun hlt => ?_⟩
  · rw [wordsDrawn_of_le hle] at hgen
    exact ⟨hgen, by rw [withResponse_pendingCount, applyStream_count_toNat, countAfter_of_le hle]⟩
  · rw [wordsDrawn_of_lt hlt] at hgen
    obtain ⟨-, -, hindex⟩ := id hgen
    exact ⟨hgen, by rw [hindex, toNat_skip_index],
      by rw [withResponse_pendingCount, applyStream_count_toNat, countAfter_of_lt hlt]⟩

/-! ## Two calls on adjoining ranges (R174) -/

/-- What a call does to the block depends on the block and the length alone. -/
theorem sameBlock_applyStream {s t : State} (hst : SameBlock s t) (addr addr' len : Nat) :
    SameBlock (applyStream addr len s) (applyStream addr' len t) := by
  have hstream := sameBlock_streamByte hst
  have hwords := (sameGen_of_sameBlock hst).skip (wordsDrawn s.pendingCount.toNat len)
  obtain ⟨-, -, hW, -, hbytes, hcount, hST⟩ := hst
  obtain ⟨sST, sW, -⟩ := applyStream_frame addr len s
  obtain ⟨tST, tW, -⟩ := applyStream_frame addr' len t
  have hafter := applyStream_sameGen addr' len t
  rw [← hcount] at hafter
  obtain ⟨hP, hQ, hindex⟩ := ((applyStream_sameGen addr len s).trans hwords).trans hafter.symm
  refine ⟨hP, hQ, by rw [sW, tW, hW], hindex, carry_ext fun p hp => ?_, ?_, by rw [sST, tST, hST]⟩
  · rw [applyStream_carryAt _ _ _ hp, applyStream_carryAt _ _ _ hp]
    simp only [hcount, hbytes, hstream]
  · rw [applyStream_pendingCount, applyStream_pendingCount, hcount]

theorem countAfter_le_three {c : Nat} (hc : c ≤ 3) (len : Nat) : countAfter c len ≤ 3 := by
  unfold countAfter
  split_ifs <;> omega

/-- Both follow from the balance of bytes, for fewer than four are left pending. -/
theorem wordsDrawn_countAfter_add {c : Nat} (hc : c ≤ 3) (m n : Nat) :
    wordsDrawn c (m + n) = wordsDrawn c m + wordsDrawn (countAfter c m) n ∧
      countAfter c (m + n) = countAfter (countAfter c m) n := by
  have hboth := len_add_countAfter c (m + n)
  have hfirst := len_add_countAfter c m
  have hsecond := len_add_countAfter (countAfter c m) n
  have hbothLe := countAfter_le_three hc (m + n)
  have hfirstLe := countAfter_le_three hc m
  have hsecondLe := countAfter_le_three hfirstLe n
  omega

/-- A range worked off in two pieces: the same bytes of `BUF`, and from a clean carry the same block. -/
theorem applyStream_append {s : State} (hclean : PendingClean s) (a m n : Nat) :
    (applyStream (a + m) n (applyStream a m s)).buf = (applyStream a (m + n) s).buf ∧
      SameBlock (applyStream (a + m) n (applyStream a m s)) (applyStream a (m + n) s) := by
  obtain ⟨hwords, hcounts⟩ := wordsDrawn_countAfter_add (pendingCount_le s) m n
  obtain ⟨ST1, W1, -⟩ := applyStream_frame a m s
  obtain ⟨ST2, W2, -⟩ := applyStream_frame (a + m) n (applyStream a m s)
  obtain ⟨ST3, W3, -⟩ := applyStream_frame a (m + n) s
  have hgen : SameGen (applyStream (a + m) n (applyStream a m s)) (applyStream a (m + n) s) := by
    refine (applyStream_sameGen ..).trans (SameGen.trans ?_ (applyStream_sameGen ..).symm)
    rw [hwords, skip_add, applyStream_count_toNat]
    exact (applyStream_sameGen a m s).skip _
  have hcount : (applyStream (a + m) n (applyStream a m s)).pendingCount = (applyStream a (m + n) s).pendingCount := by
    rw [applyStream_pendingCount, applyStream_count_toNat, applyStream_pendingCount, hcounts]
  have hstream : ∀ k, streamByte (applyStream (a + m) n (applyStream a m s)) k =
      streamByte (applyStream a (m + n) s) k := fun k => by
    rw [streamByte_applyStream, streamByte_applyStream, streamByte_applyStream, Nat.add_assoc]
  have hbytes := pendingBytes_eq_of_streamByte
    (pendingClean_applyStream (pendingClean_applyStream hclean a m) (a + m) n)
    (pendingClean_applyStream hclean a (m + n)) hcount hstream
  obtain ⟨hP, hQ, hindex⟩ := hgen
  refine ⟨?_, hP, hQ, by rw [W2, W1, W3], hindex, hbytes, hcount, by rw [ST2, ST1, ST3]⟩
  rw [applyStream_buf, applyStream_buf, applyStream_buf, listFrom_append, xorRun_append, length_listFrom]
  congr 1
  refine listFrom_congr fun i _ => ?_
  rw [streamByte_applyStream, Nat.zero_add, Nat.zero_add]

theorem applyStream_buf_congr {s t : State} (hst : SameBlock s t) (hbuf : s.buf = t.buf) (addr len : Nat) :
    (applyStream addr len s).buf = (applyStream addr len t).buf := by
  have hstream : streamByte s = streamByte t := funext (sameBlock_streamByte hst)
  rw [applyStream_buf, applyStream_buf, hbuf, hstream]

theorem admitted_part {s : State} {a n a' n' : Nat} (ha : Admitted s a n) (hlo : a ≤ a') (hhi : a' + n' ≤ a + n) :
    Admitted s a' n' := by
  obtain ⟨hs, hr, ho⟩ := ha
  exact ⟨hs, hhi.trans hr, ordinaryRange_part hlo hhi ho⟩

theorem admitted_congr {s t : State} (hST : s.ST = t.ST) (hplatform : s.platform = t.platform) {addr len : Nat}
    (ha : Admitted s addr len) : Admitted t addr len := by
  obtain ⟨hs, hr, ho⟩ := ha
  exact ⟨hST ▸ hs, hr, ordinaryRange_congr hplatform addr len ▸ ho⟩

theorem runAll_cons_next {i : Instr} {s t : State} (ht : exec i s = .next t) (is : List Instr) :
    runAll (i :: is) s = runAll is t := by
  rw [runAll, ht]

/-- The pieces one after another leave what the three phases over the whole range leave. -/
theorem runAll_pieces (lens : List Nat) : ∀ (s : State) (a : Nat), PendingClean s → Admitted s a lens.sum →
    ∃ t, runAll (pieces a lens) s = .next t ∧ t.buf = (applyStream a lens.sum s).buf ∧
      SameBlock t (applyStream a lens.sum s) := by
  induction lens with
  | nil =>
    intro s a _ _
    rw [List.sum_nil, applyStream_zero_len]
    exact ⟨s, rfl, rfl, sameBlock_refl s⟩
  | cons len lens ih =>
    intro s a hclean ha
    rw [List.sum_cons] at ha ⊢
    obtain ⟨hST, -, hplatform, -⟩ := applyStream_frame a len s
    obtain ⟨t, ht, hbuf, hblock⟩ := ih (withResponse (some ⟨.OK, []⟩) (applyStream a len s)) (a + len)
      (pendingClean_applyStream hclean a len)
      (admitted_congr hST.symm hplatform.symm (admitted_part ha (by omega) (by omega)))
    obtain ⟨hwholeBuf, hwholeBlock⟩ := applyStream_append hclean a len lens.sum
    have hresponse := sameBlock_withResponse (some ⟨.OK, []⟩) (applyStream a len s)
    refine ⟨t, ?_, hbuf.trans ((applyStream_buf_congr hresponse rfl _ _).trans hwholeBuf),
      sameBlock_trans hblock (sameBlock_trans (sameBlock_applyStream hresponse _ _ _) hwholeBlock)⟩
    rw [pieces, runAll_cons_next (exec_apply_admitted (admitted_part ha le_rfl (by omega))), ht]

/-- Settles O45, by induction on the pieces: each call's state is again one whose carry is clean. -/
theorem callSplittingInvariance : Obligations.CallSplittingInvariance := by
  unfold Obligations.CallSplittingInvariance
  rintro s a lens ⟨hclean, -⟩ ha
  obtain ⟨t, ht, hbuf, hblock⟩ := runAll_pieces lens s a hclean ha
  exact ⟨t, _, ht, exec_apply_admitted ha, hbuf,
    sameBlock_trans hblock (sameBlock_symm (sameBlock_withResponse _ _))⟩

end Sys2Proof.Machine
end

section
/-! SUPPORT. The position of a session in its keystream (41_init.md, 44_seek.md, 46_laws.md, rules R104 to R108, R150 to
R154, R170 to R175): a new session depends on key and IV alone and stands where its command says, and `APPLY` moves
it on. -/

namespace Sys2Proof.Machine

/-! ## A new session (R101 to R108) -/

/-- R108: the packing fixes the first 16 words, and the recurrence every later one from those before it. -/
theorem buildScratch_W_eq (key iv : Key) (s s' : State) :
    (buildScratch key iv s).W = (buildScratch key iv s').W := by
  have hwords : ∀ i, i < 2560 →
      readScratch (buildScratch key iv s).W i = readScratch (buildScratch key iv s').W i := by
    intro i
    induction i using Nat.strong_induction_on with
    | h i ih =>
      intro hi
      rw [buildScratch_W, buildScratch_W] at ih ⊢
      by_cases hlo : i < 16
      · have hpacked : ∀ w : Scratch, readScratch (loadKeyIv key iv 8 w) i =
            if i < 8 then keyWord key i else keyWord iv (i - 8) := fun w => by
          split_ifs with hkey
          · exact (readScratch_loadKeyIv key iv w le_rfl hkey).1
          · have hiv := (readScratch_loadKeyIv key iv w le_rfl (by omega : i - 8 < 8)).2
            rwa [Nat.add_sub_cancel' (by omega)] at hiv
        rw [readScratch_expandScratch_of_lt _ (Nat.zero_le _) w_first_add_steps.le hlo,
          readScratch_expandScratch_of_lt _ (Nat.zero_le _) w_first_add_steps.le hlo, expandScratch, expandScratch,
          hpacked, hpacked]
      · rw [readScratch_expandScratch_eq_scratchWord _ w_first_add_steps.le (by omega) (w_first_add_steps ▸ hi),
          readScratch_expandScratch_eq_scratchWord _ w_first_add_steps.le (by omega) (w_first_add_steps ▸ hi)]
        exact scratchWord_congr (by omega) fun j hj => ih j hj (by omega)
  refine Arr.ext_get fun i => ?_
  have hof : Fin.ofNat 2560 i.val = i := Fin.ext (Nat.mod_eq_of_lt i.isLt)
  simpa only [readScratch, hof] using hwords i.val i.isLt

/-- R106, R170: the generator that `TableInit` leaves is that of the fresh session, whatever stood before. -/
theorem tableInit_sameGen (key iv : Key) (s : State) : SameGen (tableInit key iv s) (freshSession key iv) := by
  have hscratch := buildScratch_W_eq key iv s State.reset
  have hloaded : SameGen (clearPosition (wipeScratch (loadTables (buildScratch key iv s))))
      (clearPosition (wipeScratch (loadTables (buildScratch key iv State.reset)))) :=
    ⟨by simp [-buildScratch_W, hscratch], by simp [-buildScratch_W, hscratch], by simp⟩
  obtain ⟨hP, hQ, -⟩ := hloaded.skip Config.WARMUP
  refine ⟨?_, ?_, by simp [freshSession]⟩
  · rw [freshSession, tableInit, tableInit, warmUp_P, warmUp_P, hP]
  · rw [freshSession, tableInit, tableInit, warmUp_Q, warmUp_Q, hQ]

/-- Settles O31: `TableInit`'s fields, with the warm-up of 4096 words written out. -/
theorem initCompletes : Obligations.InitCompletes := by
  unfold Obligations.InitCompletes
  intro key iv s loaded
  have hindex : (skip 4096 loaded).index = 0 := by
    rw [skip_index, clearPosition_index]
    rfl
  refine ⟨_, exec_init key iv s, ?_, ?_, hindex, ?_⟩
  · rw [withResponse_P, setReady_P, tableInit, warmUp_P, Config.WARMUP_eq]
  · rw [withResponse_Q, setReady_Q, tableInit, warmUp_Q, Config.WARMUP_eq]
  · simp [SameOutside]

/-! ## Positions (R172) -/

theorem freshSession_index (key iv : Key) : (freshSession key iv).index = 0 := tableInit_index ..

/-- R171, R172: a session at `pos` delivers the keystream from byte `pos` on. -/
theorem AtPosition.streamByte {key iv : Key} {words pos : Nat} {s : State} (hs : AtPosition key iv words pos s)
    (k : Nat) : streamByte s k = KS key iv (pos + k) := by
  obtain ⟨-, hgen, hpos, hcarry⟩ := hs
  by_cases hk : k < s.pendingCount.toNat
  · rw [← hcarry k hk, Machine.streamByte]
    simp only [if_pos hk]
  · have hword : (pos + k) / 4 = words + (k - s.pendingCount.toNat) / 4 := by omega
    have hbyte : (pos + k) % 4 = (k - s.pendingCount.toNat) % 4 := by omega
    simp only [Machine.streamByte, if_neg hk, KS, ksWord, hword, hbyte, hgen.wordAt, wordAt_skip]

/-- R172: the word count is that of the words that reach to byte `pos`. -/
theorem AtPosition.words_eq {key iv : Key} {words pos : Nat} {s : State} (hs : AtPosition key iv words pos s) :
    words = (pos + 3) / 4 := by
  obtain ⟨-, -, hpos, -⟩ := hs
  have hcount := pendingCount_le s
  omega

theorem AtPosition.index {key iv : Key} {words pos : Nat} {s : State} (hs : AtPosition key iv words pos s) :
    s.index.toNat = words % 2048 := by
  obtain ⟨-, ⟨-, -, hindex⟩, -⟩ := hs
  rw [hindex, toNat_skip_index, freshSession_index]
  exact congrArg (· % 2048) (Nat.zero_add words)

theorem AtPosition.congr {key iv : Key} {words pos : Nat} {s t : State} (hst : SameBlock s t)
    (hs : AtPosition key iv words pos s) : AtPosition key iv words pos t := by
  obtain ⟨hready, hgen, hpos, hcarry⟩ := hs
  have hgen' := (sameGen_of_sameBlock hst).symm.trans hgen
  obtain ⟨-, -, -, -, hbytes, hcount, hST⟩ := hst
  exact ⟨hST ▸ hready, hgen', hcount ▸ hpos, hcount ▸ hbytes ▸ hcarry⟩

/-- Clean blocks of sessions at one position are equal. -/
theorem AtPosition.sameBlock {key iv : Key} {words words' pos : Nat} {s t : State} (hs : AtPosition key iv words pos s)
    (ht : AtPosition key iv words' pos t) (hsc : PendingClean s) (htc : PendingClean t) (hsW : ScratchClear s)
    (htW : ScratchClear t) : SameBlock s t := by
  obtain rfl : words = words' := hs.words_eq.trans ht.words_eq.symm
  have hstream : ∀ k, Machine.streamByte s k = Machine.streamByte t k := fun k =>
    (hs.streamByte k).trans (ht.streamByte k).symm
  obtain ⟨hsST, hsgen, hspos, -⟩ := hs
  obtain ⟨htST, htgen, htpos, -⟩ := ht
  have hcount : s.pendingCount = t.pendingCount := BitVec.eq_of_toNat_eq (by omega)
  obtain ⟨hP, hQ, hindex⟩ := hsgen.trans htgen.symm
  exact ⟨hP, hQ, hsW.trans htW.symm, hindex, pendingBytes_eq_of_streamByte hsc htc hcount hstream, hcount,
    hsST.trans htST.symm⟩

/-- R132: a call takes the session from `pos` to `pos + len`, with the words that R141 counts. -/
theorem AtPosition.applyStream {key iv : Key} {words pos : Nat} {s : State} (hs : AtPosition key iv words pos s)
    (addr len : Nat) : AtPosition key iv (words + wordsDrawn s.pendingCount.toNat len) (pos + len)
      (applyStream addr len s) := by
  have hstream := hs.streamByte
  obtain ⟨hready, hgen, hpos, -⟩ := hs
  obtain ⟨hST, -⟩ := applyStream_frame addr len s
  have hbalance := len_add_countAfter s.pendingCount.toNat len
  refine ⟨hST.trans hready, ?_, by rw [applyStream_count_toNat]; omega, fun t ht => ?_⟩
  · rw [skip_add]
    exact (applyStream_sameGen addr len s).trans (hgen.skip _)
  · have hvalid := streamByte_applyStream addr len t s
    rw [Machine.streamByte, if_pos ht, hstream] at hvalid
    rw [hvalid, Nat.add_assoc]

theorem AtPosition.nextWord {key iv : Key} {words pos : Nat} {s : State} (hs : AtPosition key iv words pos s)
    (hcount : s.pendingCount = 0) : AtPosition key iv (words + 1) (pos + 4) (nextWord s).2 := by
  obtain ⟨hready, hgen, hpos, -⟩ := hs
  have hnone : s.pendingCount.toNat = 0 := congrArg BitVec.toNat hcount
  refine ⟨(nextWord_ST s).trans hready, ?_, ?_, fun t ht => ?_⟩
  · rw [skip_succ_last]
    exact hgen.nextWord.2
  · rw [nextWord_pendingCount]
    omega
  · rw [nextWord_pendingCount] at ht
    omega

/-! ## INITAT's seek (R151, R152) -/

/-- The seek draws every word of which a byte lies below `offset`. -/
theorem seek_sameGen (offset : Nat) (s : State) : SameGen (seek offset s) (skip ((offset + 3) / 4) s) := by
  by_cases hrem : offset % 4 = 0
  · have hwords : (offset + 3) / 4 = offset / 4 := by omega
    rw [hwords]
    exact seek_sameGen_of_aligned hrem s
  · have hwords : (offset + 3) / 4 = offset / 4 + 1 := by omega
    rw [hwords]
    exact seek_sameGen_of_partial hrem s

theorem seek_count_toNat {s : State} (hcount : s.pendingCount = 0) (offset : Nat) :
    (seek offset s).pendingCount.toNat = (4 - offset % 4) % 4 := by
  by_cases hrem : offset % 4 = 0
  · rw [seek_of_aligned hrem, skip_pendingCount, hcount, hrem]
    rfl
  · rw [seek_of_partial hrem, storeCarry_pendingCount, BitVec.toNat_ofNat]

theorem carryAt_seek {s : State} (hbytes : s.pendingBytes = Arr.fill 3 0) (offset : Nat) {p : Nat} (hp : p < 3) :
    carryAt (seek offset s).pendingBytes p =
      if offset % 4 ≠ 0 ∧ offset % 4 ≤ p + 1 then byteOf (p + 1) (wordAt (offset / 4) s) else 0 := by
  by_cases hrem : offset % 4 = 0
  · rw [seek_of_aligned hrem, skip_pendingBytes, hbytes, carryAt_fill, if_neg (by omega)]
  · rw [seek_of_partial hrem, storeCarry_pendingBytes, skip_pendingBytes, hbytes, carryAt_keepTail _ _ _ hp,
      carryAt_fill]
    simp only [ne_eq, hrem, not_false_eq_true, true_and]

theorem pendingClean_seek {s : State} (hcount : s.pendingCount = 0) (hbytes : s.pendingBytes = Arr.fill 3 0)
    (offset : Nat) : PendingClean (seek offset s) := by
  rw [pendingClean_iff]
  intro p hp
  rw [seek_count_toNat hcount] at hp
  rw [carryAt_seek hbytes offset (by omega), if_neg (by omega)]

/-- R153: the seek from byte 0 stands at byte `offset`. -/
theorem atPosition_seek (key iv : Key) (offset : Nat) (s : State) :
    AtPosition key iv ((offset + 3) / 4) offset (setReady (seek offset (tableInit key iv s))) := by
  have hcount : (seek offset (tableInit key iv s)).pendingCount.toNat = (4 - offset % 4) % 4 :=
    seek_count_toNat (tableInit_pendingCount ..) offset
  refine ⟨setReady_ST _, ?_, ?_, fun t ht => ?_⟩
  · exact (sameGen_setReady _).trans ((seek_sameGen offset _).trans ((tableInit_sameGen key iv s).skip _))
  · rw [setReady_pendingCount, hcount]
    omega
  · rw [setReady_pendingCount, hcount] at ht
    rw [setReady_pendingCount, setReady_pendingBytes, hcount,
      carryAt_seek (tableInit_pendingBytes ..) offset (by omega), if_pos (by omega),
      (tableInit_sameGen key iv s).wordAt, KS, ksWord]
    congr 2 <;> omega

/-! ## The commands that open a session -/

/-- Command `i` opens, in every state, a session with a clean block at byte `pos` of the keystream; outside the block
nothing changes. -/
def OpensAt (i : Instr) (key iv : Key) (pos : Nat) : Prop :=
  ∀ s : State, ∃ t, exec i s = .next t ∧ AtPosition key iv ((pos + 3) / 4) pos t ∧ PendingClean t ∧ ScratchClear t ∧
    SameOutside t s ∧ t.response = some ⟨.OK, []⟩

theorem exec_initAt_zero (key iv : Key) (s : State) : exec (.initAt key iv 0) s = exec (.init key iv) s := by
  rw [exec_initAt, exec_init, seek_of_aligned rfl, Nat.zero_div, skip_zero]

theorem initAt_opensAt (key iv : Key) (offset : Nat) : OpensAt (.initAt key iv offset) key iv offset := by
  intro s
  obtain ⟨-, hW, hbuf, hplatform, hinputs, -⟩ := seek_frame offset (tableInit key iv s)
  refine ⟨_, exec_initAt key iv offset s, (atPosition_seek key iv offset s).congr
    (sameBlock_symm (sameBlock_withResponse _ _)), ?_, ?_, ?_, rfl⟩
  · exact pendingClean_seek (tableInit_pendingCount ..) (tableInit_pendingBytes ..) offset
  · rw [ScratchClear, withResponse_W, setReady_W, hW, tableInit_W]
  · simp [SameOutside, hbuf, hplatform, hinputs]

theorem init_opensAt (key iv : Key) : OpensAt (.init key iv) key iv 0 := fun s =>
  exec_initAt_zero key iv s ▸ initAt_opensAt key iv 0 s

/-- R108, R179: two runs of such a command leave the same block, as do two such commands of one position. -/
theorem OpensAt.sameBlock {i j : Instr} {key iv : Key} {pos : Nat} (hi : OpensAt i key iv pos)
    (hj : OpensAt j key iv pos) (s s' : State) :
    ∃ t t', exec i s = .next t ∧ exec j s' = .next t' ∧ SameBlock t t' := by
  obtain ⟨t, ht, hpos, hclean, hW, -⟩ := hi s
  obtain ⟨t', ht', hpos', hclean', hW', -⟩ := hj s'
  exact ⟨t, t', ht, ht', hpos.sameBlock hpos' hclean hclean' hW hW'⟩

/-- Settles O32: position, clean carry and clear scratch fix the block. -/
theorem initForgetsOldState : Obligations.InitForgetsOldState := by
  unfold Obligations.InitForgetsOldState
  intro key iv offset s s'
  have hinit := init_opensAt key iv
  have hinitAt := initAt_opensAt key iv offset
  exact ⟨hinit.sameBlock hinit s s', hinitAt.sameBlock hinitAt s s'⟩

/-- Settles O33: the stream at byte 0, and the generator of the fresh session. -/
theorem initStandsAtByteZero : Obligations.InitStandsAtByteZero := by
  unfold Obligations.InitStandsAtByteZero
  intro key iv s
  obtain ⟨t, ht, hpos, -⟩ := init_opensAt key iv s
  obtain ⟨-, hgen, -⟩ := id hpos
  exact ⟨t, ht, hpos, fun k => by rw [hpos.streamByte, Nat.zero_add], hgen.nextWord.1⟩

/-- Settles O34: the counts follow from the position, for the block draws whole words. -/
theorem initAtCompletes : Obligations.InitAtCompletes := by
  unfold Obligations.InitAtCompletes
  intro key iv offset s
  obtain ⟨t, ht, hpos, hclean, hW, houtside, hresponse⟩ := initAt_opensAt key iv offset s
  obtain ⟨-, -, hwords, -⟩ := id hpos
  exact ⟨t, ht, hpos, hpos.streamByte, hpos.index, by omega, hclean, hW, hresponse, houtside⟩

/-! ## APPLY at a position (R132, R172) -/

/-- An admitted `APPLY` at byte `pos`: the keystream from `pos` on in its range, and the session at `pos + len`. -/
theorem AtPosition.exec_apply {key iv : Key} {words pos addr len : Nat} {s : State} (hs : AtPosition key iv words pos s)
    (ha : Admitted s addr len) (hwf : Memory.wf s.buf = true) :
    ∃ t, exec (.apply addr len) s = .next t ∧
      AtPosition key iv (words + wordsDrawn s.pendingCount.toNat len) (pos + len) t ∧
      Memory.wf t.buf = true ∧ t.platform = s.platform ∧ ∀ a, Memory.read t.buf a =
        if addr ≤ a ∧ a < addr + len then Memory.read s.buf a ^^^ KS key iv (pos + (a - addr))
        else Memory.read s.buf a := by
  have ⟨_, hr, _⟩ := ha
  obtain ⟨hwf', hread⟩ := applyStream_buf_spec hwf hr
  obtain ⟨-, -, hplatform, -⟩ := applyStream_frame addr len s
  refine ⟨_, exec_apply_admitted ha,
    (hs.applyStream addr len).congr (sameBlock_symm (sameBlock_withResponse _ _)), hwf', hplatform, fun a => ?_⟩
  rw [withResponse_buf, hread, hs.streamByte]

/-- Settles O43, for any state at the position. -/
theorem applyDeliversKeystream : Obligations.ApplyDeliversKeystream := by
  unfold Obligations.ApplyDeliversKeystream
  intro key iv words pos s addr len hs ha hwf
  obtain ⟨t, ht, hpos, -, -, hread⟩ := hs.exec_apply ha hwf
  refine ⟨t, _, ht, fun k hk => ?_, fun a hout => ?_, hpos⟩
  · rw [hread, if_pos (by omega), Nat.add_sub_cancel_left]
  · rw [hread, if_neg (by omega)]

/-- Settles O47: each command's position, as a step from any state at a position. -/
theorem positionFollowsCommands : Obligations.PositionFollowsCommands := by
  unfold Obligations.PositionFollowsCommands
  refine ⟨fun key iv s => ?_, fun key iv offset s => ?_,
    fun key iv words pos s hs => ⟨hs.index, fun addr len ha => ?_, fun hcount => ?_⟩⟩
  · obtain ⟨t, ht, hpos, -⟩ := init_opensAt key iv s
    exact ⟨t, ht, hpos⟩
  · obtain ⟨t, ht, hpos, -⟩ := initAt_opensAt key iv offset s
    exact ⟨t, _, ht, hpos⟩
  · exact ⟨_, _, exec_apply_admitted ha, Nat.le_add_right ..,
      (hs.applyStream addr len).congr (sameBlock_symm (sameBlock_withResponse _ _))⟩
  · have ⟨hready, _⟩ := hs
    exact ⟨_, exec_nextw_ready hready, (hs.nextWord hcount).congr (sameBlock_symm (sameBlock_withResponse _ _))⟩

/-! ## A session opened and applied (R154, R173, R175) -/

theorem runAll_append_next {is : List Instr} (js : List Instr) {s t : State} (ht : runAll is s = .next t) :
    runAll (is ++ js) s = runAll js t := by
  induction is generalizing s with
  | nil => cases ht; rfl
  | cons i is ih =>
    cases hi : exec i s with
    | next u => rw [List.cons_append, runAll_cons_next hi, ih ((runAll_cons_next hi is).symm.trans ht)]
    | fault r => rw [runAll, hi] at ht; cases ht
    | refused r => rw [runAll, hi] at ht; cases ht

/-- The range holds what it held, XORed with the keystream from the position on; nothing else of `BUF` changes. -/
theorem OpensAt.runAll_apply {i : Instr} {key iv : Key} {pos : Nat} (hi : OpensAt i key iv pos) {s : State}
    {addr len : Nat} (hwf : Memory.wf s.buf = true) (hr : addr + len ≤ Config.BUF_SIZE)
    (ho : ordinaryRange s addr len = true) :
    ∃ t, runAll [i, .apply addr len] s = .next t ∧ Memory.wf t.buf = true ∧ t.platform = s.platform ∧
      ∀ a, Memory.read t.buf a =
        if addr ≤ a ∧ a < addr + len then Memory.read s.buf a ^^^ KS key iv (pos + (a - addr))
        else Memory.read s.buf a := by
  obtain ⟨u, hu, hpos, -, -, ⟨hbuf, hplatform, -⟩, -⟩ := hi s
  have ⟨hready, _⟩ := hpos
  obtain ⟨t, ht, -, hwf', hplatform', hread⟩ :=
    hpos.exec_apply ⟨hready, hr, (ordinaryRange_congr hplatform addr len).trans ho⟩ (hbuf ▸ hwf)
  rw [hbuf] at hread
  exact ⟨t, by rw [runAll_cons_next hu, runAll_cons_next ht, runAll], hwf', hplatform'.trans hplatform, hread⟩

theorem OpensAt.runAll_apply_zeroed {i : Instr} {key iv : Key} {pos : Nat} (hi : OpensAt i key iv pos) {s : State}
    {addr len : Nat} (hwf : Memory.wf s.buf = true) (hr : addr + len ≤ Config.BUF_SIZE)
    (ho : ordinaryRange s addr len = true) (hzero : ∀ k, k < len → Memory.read s.buf (addr + k) = 0) :
    ∃ t, runAll [i, .apply addr len] s = .next t ∧
      ∀ k, k < len → Memory.read t.buf (addr + k) = KS key iv (pos + k) := by
  obtain ⟨t, ht, -, -, hread⟩ := hi.runAll_apply hwf hr ho
  refine ⟨t, ht, fun k hk => ?_⟩
  rw [hread, if_pos (by omega), hzero k hk, Nat.add_sub_cancel_left]
  exact BitVec.zero_xor

/-- R173: the same keystream bytes, XORed twice. -/
theorem OpensAt.runAll_apply_twice {i : Instr} {key iv : Key} {pos : Nat} (hi : OpensAt i key iv pos) {s : State}
    {addr len : Nat} (hwf : Memory.wf s.buf = true) (hr : addr + len ≤ Config.BUF_SIZE)
    (ho : ordinaryRange s addr len = true) :
    ∃ t, runAll [i, .apply addr len, i, .apply addr len] s = .next t ∧ t.buf = s.buf := by
  obtain ⟨u, hu, huwf, hplatform, huread⟩ := hi.runAll_apply hwf hr ho
  obtain ⟨t, ht, htwf, -, htread⟩ := hi.runAll_apply huwf hr ((ordinaryRange_congr hplatform addr len).trans ho)
  refine ⟨t, (runAll_append_next [i, .apply addr len] hu).trans ht, Memory.ext_read htwf hwf fun a => ?_⟩
  rw [htread, huread]
  split_ifs
  · rw [BitVec.xor_assoc, BitVec.xor_self, BitVec.xor_zero]
  · rfl

/-- Settles O46, once for both commands. -/
theorem applyTwiceFromSamePositionRestores : Obligations.ApplyTwiceFromSamePositionRestores := by
  unfold Obligations.ApplyTwiceFromSamePositionRestores
  intro key iv offset addr len s hwf hr ho
  exact ⟨(initAt_opensAt key iv offset).runAll_apply_twice hwf hr ho,
    (init_opensAt key iv).runAll_apply_twice hwf hr ho⟩

/-- Settles O37: the bytes from `n` on are those from byte `n` of the longer range. -/
theorem seekEquivalence : Obligations.SeekEquivalence := by
  unfold Obligations.SeekEquivalence
  refine ⟨fun key iv n m a s hwf hr ho hzero => (initAt_opensAt key iv n).runAll_apply_zeroed hwf hr ho hzero,
    fun key iv n m a' s hwf hr ho hzero => ?_⟩
  obtain ⟨u, hu, hread⟩ := (init_opensAt key iv).runAll_apply_zeroed hwf hr ho hzero
  simp only [Nat.zero_add] at hread
  exact ⟨u, hu, hread, fun k hk => hread (n + k) (by omega)⟩

/-- Settles O36: both runs end at byte `offset` with a clean block, which fixes it. -/
theorem seekEqualsInitThenApply : Obligations.SeekEqualsInitThenApply := by
  unfold Obligations.SeekEqualsInitThenApply
  refine ⟨exec_initAt_zero, fun key iv offset addr s hr ho => ?_⟩
  obtain ⟨t, ht, htpos, htclean, htW, -⟩ := initAt_opensAt key iv offset s
  obtain ⟨u, hu, hupos, huclean, huW, ⟨-, hplatform, -⟩, -⟩ := init_opensAt key iv s
  have ⟨hready, _⟩ := hupos
  obtain ⟨-, hW, -⟩ := applyStream_frame addr offset u
  have ha : Admitted u addr offset := ⟨hready, hr, (ordinaryRange_congr hplatform addr offset).trans ho⟩
  have happlied := hupos.applyStream addr offset
  rw [Nat.zero_add offset] at happlied
  refine ⟨t, _, ht, by rw [runAll_cons_next hu, runAll_cons_next (exec_apply_admitted ha), runAll], ?_⟩
  have hclean := pendingClean_applyStream huclean addr offset
  exact sameBlock_trans (htpos.sameBlock happlied htclean hclean htW (hW.trans huW))
    (sameBlock_symm (sameBlock_withResponse _ _))

end Sys2Proof.Machine
end

section
/-! SUPPORT. The moves of the host (30_encoding.md, 70_reset_and_hazards.md, rules R50, R51, R215 to R218, R230): what
each one leaves, and the invariant of a command boundary (10_state.md, rules R15, R16, R18). -/

namespace Sys2Proof.Machine

/-! ## Packets (R51, R53, R59) -/

/-- Settles O5: the packet is taken from the list, and decoding selects the branch of `runPacket`. -/
theorem stepRunsDecodedPacket : Obligations.StepRunsDecodedPacket := by
  unfold Obligations.StepRunsDecodedPacket
  intro s b rest hs
  have hstep : step s = runPacket b { s with inputs := rest, response := none } := step_move hs
  exact ⟨hstep, fun i hb => hstep.trans (runPacket_ok hb _), fun c hb => hstep.trans (runPacket_error hb _)⟩

theorem step_encode {s : State} {i : Instr} {rest : List HostMove} (hi : WellFormed i = true)
    (hs : s.inputs = .packet (encode i) :: rest) : step s = exec i { s with inputs := rest, response := none } :=
  (step_move hs).trans (runPacket_ok (decode_encode hi) _)

/-- Settles O6, by the round trip of the encoding. -/
theorem stepRunsEncodedCommand : Obligations.StepRunsEncodedCommand := by
  unfold Obligations.StepRunsEncodedCommand
  exact fun _ _ _ hi hs => step_encode hi hs

theorem decode_tablePacket {nbits w : Nat} {i : Instr} (hw : decodeTableWord nbits w = some i) :
    decode (tablePacket nbits w) = .ok i := by
  unfold decodeTableWord at hw
  cases hb : decode (tablePacket nbits w) with
  | ok j =>
    rw [hb] at hw
    exact congrArg Except.ok (Option.some.inj hw)
  | error c =>
    rw [hb] at hw
    cases hw

/-- Settles O7: the placed packet is the first move, and taking it leaves the list as it was. -/
theorem tableWordIsNextCommand : Obligations.TableWordIsNextCommand := by
  unfold Obligations.TableWordIsNextCommand
  intro s nbits w i hw
  have hinputs : (s.withFetchWord nbits w).inputs = .packet (tablePacket nbits w) :: s.inputs := withInputs_inputs ..
  exact (step_move hinputs).trans (runPacket_ok (decode_tablePacket hw) _)

/-- Settles O8: the idle step only delivers the response. -/
theorem idleStepKeepsState : Obligations.IdleStepKeepsState := by
  unfold Obligations.IdleStepKeepsState
  exact fun _ hs => step_idle hs

/-- Settles O2: each packet is the encoding of its command, and admission separates the two ranges at the top. -/
theorem workedEncodingsAreRead : Obligations.WorkedEncodingsAreRead := by
  unfold Obligations.WorkedEncodingsAreRead
  have hread : ∀ {b : Packet} {i : Instr}, WellFormed i = true → encode i = b → decode b = .ok i :=
    fun hi hb => decode_eq_ok_iff.mpr ⟨hi, hb⟩
  refine ⟨hread rfl rfl, hread rfl rfl, hread rfl rfl, hread rfl rfl, hread rfl rfl, hread rfl rfl, hread rfl rfl,
    hread rfl rfl, hread rfl rfl, fun s hs hplatform => ⟨?_, ?_⟩, hread rfl rfl, rfl, by decide, rfl⟩
  · have ho : ordinaryRange s 0xfffffff0 16 = true := by rw [ordinaryRange, hplatform]; rfl
    exact exec_apply_responds_ok ⟨hs, by decide, ho⟩
  · exact ⟨_, exec_apply_range hs (by decide), rfl⟩

/-! ## NEXTW (R121) -/

/-- Settles O27, by `ST`. -/
theorem nextwReturnsOneWord : Obligations.NextwReturnsOneWord := by
  unfold Obligations.NextwReturnsOneWord
  refine ⟨fun s hs => ⟨_, exec_nextw_ready hs, rfl, sameGen_withResponse .., ?_⟩, fun s hs => exec_nextw_empty hs⟩
  simp [hs, SameOutside]

/-! ## Ranges that are not ordinary memory (R41, R48) -/

theorem exec_apply_in_space {s : State} {addr len : Nat} (hs : s.ST = .READY) (hr : addr + len ≤ Config.BUF_SIZE) :
    exec (.apply addr len) s = onOrdinary addr len s (respond .OK [] (applyStream addr len s)) := by
  rw [exec, execApply, if_pos (isReady_iff.mpr hs), if_neg (Nat.not_lt.mpr hr)]

theorem onOrdinary_device {s : State} {addr len : Nat} (hd : touches .device s.platform addr len = true)
    (k : Host.Outcome State Fault Refusal) : onOrdinary addr len s k = .refused .deviceRange := if_pos hd

theorem onOrdinary_hole {s : State} {addr len : Nat} (hd : touches .device s.platform addr len = false)
    (hh : touches .hole s.platform addr len = true) (k : Host.Outcome State Fault Refusal) :
    onOrdinary addr len s k = .fault .unbacked := by
  rw [onOrdinary, if_neg (Bool.not_eq_true _ ▸ hd), if_pos hh]

/-- Settles O48: past admission the regions that the range meets decide, and an empty range meets none. -/
theorem applyStopsOffOrdinaryMemory : Obligations.ApplyStopsOffOrdinaryMemory := by
  unfold Obligations.ApplyStopsOffOrdinaryMemory
  intro s addr len hs hr
  refine ⟨fun hd => ?_, fun hd hh => ?_, ?_⟩
  · rw [exec_apply_in_space hs hr, onOrdinary_device hd]
  · rw [exec_apply_in_space hs hr, onOrdinary_hole hd hh]
  · rintro rfl
    exact ⟨_, exec_apply_admitted (admitted_zero_len hs hr)⟩

/-! ## RELEASE and reset (R25, R160, R215, R217) -/

/-- The wiped block is the reset state but for what lies outside the block and the response. -/
theorem wipeBlock_eq (s : State) : wipeBlock s = { State.reset with
    buf := s.buf, platform := s.platform, inputs := s.inputs, response := s.response } := by
  cases s
  rfl

/-- What a reset leaves of a state whose move has been taken, with `m` in `BUF`. -/
theorem wiped_taken_eq (m : Memory) (rest : List HostMove) (s : State) :
    withResponse none (wipeBlock (withBuf m (withInputs rest (withResponse none s)))) =
      { State.reset with buf := m, platform := s.platform, inputs := rest } := by
  rw [wipeBlock_eq]
  rfl

theorem sameBlock_wipeBlock (s : State) : SameBlock (wipeBlock s) State.reset := by
  rw [wipeBlock_eq]
  exact sameBlock_refl State.reset

/-- Settles O9: the wiped block, with nothing done to `BUF`. -/
theorem resetEventGivesResetState : Obligations.ResetEventGivesResetState := by
  unfold Obligations.ResetEventGivesResetState
  intro s rest hs
  exact (step_move hs).trans (congrArg Host.Outcome.next (wiped_taken_eq s.buf rest s))

/-- Settles O51: `RELEASE` and reset both wipe the block, and a wiped block is `EMPTY`. -/
theorem releaseGivesResetState : Obligations.ReleaseGivesResetState := by
  unfold Obligations.ReleaseGivesResetState
  refine ⟨⟨rfl, fun bs hbs => decode_wrong_length (by simp) (by simp) ?_⟩, fun s => ⟨?_, ?_, ?_⟩⟩
  · have hlen := List.length_pos_iff.mpr hbs
    rw [List.length_cons, opcodeOf_cons]
    exact (Nat.succ_lt_succ hlen).ne'
  · rw [exec_release, wipeBlock_eq]
    rfl
  · refine ⟨_, _, runAll_cons_next (exec_release s) [], ?_, rfl⟩
    rw [runAll_cons_next (exec_release s), runAll_cons_next (exec_apply_empty _ 0 4), runAll]
    · rfl
    · rw [withResponse_ST, wipeBlock_ST]
  · exact ⟨_, resetEvent_eq s, sameBlock_trans (sameBlock_withResponse ..) (sameBlock_wipeBlock s), wipeBlock_buf s⟩

/-- Settles O52: what each command answers in `EMPTY`. -/
theorem onlyInitSucceedsAfterReset : Obligations.OnlyInitSucceedsAfterReset := by
  unfold Obligations.OnlyInitSucceedsAfterReset
  exact ⟨rfl, fun s hs => ⟨fun key iv => ⟨_, exec_init key iv s, rfl, setReady_ST (tableInit key iv s)⟩,
    fun key iv offset => ⟨_, exec_initAt key iv offset s, rfl, setReady_ST (seek offset (tableInit key iv s))⟩,
    ⟨_, exec_release s, rfl, wipeBlock_ST s⟩, exec_nextw_empty hs, exec_apply_empty hs⟩⟩

/-- Settles O53: every array of the reset state is filled with zero. -/
theorem resetValues : Obligations.ResetValues := by
  unfold Obligations.ResetValues
  exact ⟨Arr.get_fill 1024 0, Arr.get_fill 1024 0, Arr.get_fill 2560 0, rfl, rfl, rfl, rfl⟩

/-! ## The bytes that a reset in mid-command leaves (R39, R218) -/

theorem copyPrefix_applyStream {s : State} {addr len : Nat} (hwf : Memory.wf s.buf = true)
    (hr : addr + len ≤ Config.BUF_SIZE) (k0 : Nat) :
    Memory.wf (copyPrefix (applyStream addr len s).buf s.buf addr (min k0 len)) = true ∧
    ∀ a, Memory.read (copyPrefix (applyStream addr len s).buf s.buf addr (min k0 len)) a =
      if addr ≤ a ∧ a < addr + min k0 len then Memory.read s.buf a ^^^ streamByte s (a - addr)
      else Memory.read s.buf a := by
  obtain ⟨hwf', hread⟩ := copyPrefix_spec (applyStream addr len s).buf (min k0 len) (m := s.buf) (a := addr) hwf
    (by omega)
  refine ⟨hwf', fun a => ?_⟩
  rw [hread]
  split_ifs with hin
  · rw [(applyStream_buf_spec hwf hr).2, if_pos (by omega)]
  · rfl

/-- Everything a reset in mid-command leaves: the wiped block over `BUF` as it was, or with the first bytes of the
range of an admitted `APPLY` transformed. -/
theorem abandon_next_buf {b : Packet} {k0 : Nat} {s u : State} (hwf : Memory.wf s.buf = true)
    (hu : abandon b k0 s = .next u) :
    ∃ m, u = withResponse none (wipeBlock (withBuf m s)) ∧ Memory.wf m = true ∧
      (m = s.buf ∨ ∃ addr len, decode b = .ok (.apply addr len) ∧ Admitted s addr len ∧ ∀ a, Memory.read m a =
        if addr ≤ a ∧ a < addr + min k0 len then Memory.read s.buf a ^^^ streamByte s (a - addr)
        else Memory.read s.buf a) := by
  obtain ⟨rfl, -⟩ | ⟨addr, len, t, hb, ht, rfl⟩ := abandon_next hu
  · exact ⟨s.buf, rfl, hwf, Or.inl rfl⟩
  · obtain ⟨-, rfl⟩ | ⟨-, -, rfl⟩ | ⟨ha, rfl⟩ := exec_apply_next ht
    · exact ⟨_, rfl, (copyPrefix_self hwf _ _).symm ▸ hwf, Or.inl (copyPrefix_self hwf _ _)⟩
    · exact ⟨_, rfl, (copyPrefix_self hwf _ _).symm ▸ hwf, Or.inl (copyPrefix_self hwf _ _)⟩
    · have ⟨_, hr, _⟩ := ha
      obtain ⟨hwf', hread⟩ := copyPrefix_applyStream hwf hr k0
      exact ⟨_, rfl, hwf', Or.inr ⟨addr, len, hb, ha, hread⟩⟩

/-- Delivering the response and taking the move leave the block. -/
theorem sameBlock_taken (rest : List HostMove) (s : State) :
    SameBlock (withInputs rest (withResponse none s)) s := by
  simp [SameBlock]

/-- Settles O10: only the first bytes of an admitted `APPLY`'s range can differ from the buffer before. -/
theorem resetInMidCommandGivesResetState : Obligations.ResetInMidCommandGivesResetState := by
  unfold Obligations.ResetInMidCommandGivesResetState
  intro s t b w k0 rest hs hwf ht
  have hmove : abandon b k0 (withInputs rest (withResponse none s)) = .next t := (step_move hs).symm.trans ht
  obtain ⟨m, rfl, -, hm⟩ := abandon_next_buf (s := withInputs rest (withResponse none s)) hwf hmove
  rw [wiped_taken_eq]
  refine ⟨sameBlock_refl State.reset, rfl, rfl, rfl, ?_⟩
  obtain rfl | ⟨addr, len, hb, ha, -⟩ := hm
  · exact Or.inl rfl
  · exact Or.inr ⟨addr, len, hb, admitted_congr rfl rfl ha⟩

/-- Settles O11: `copyPrefix` takes the first bytes from what the whole call would leave. -/
theorem resetInMidApplyLeavesPrefix : Obligations.ResetInMidApplyLeavesPrefix := by
  unfold Obligations.ResetInMidApplyLeavesPrefix
  intro s addr len k0 w rest hi ha hwf hs
  have ⟨_, hr, _⟩ := ha
  have hfound : Admitted (withInputs rest (withResponse none s)) addr len := admitted_congr rfl rfl ha
  obtain ⟨hwf', hread⟩ := copyPrefix_applyStream (s := withInputs rest (withResponse none s)) hwf hr k0
  have hstream : streamByte (withInputs rest (withResponse none s)) = streamByte s :=
    funext (sameBlock_streamByte (sameBlock_taken rest s))
  rw [hstream] at hread
  refine ⟨_, ?_, hwf', hread⟩
  rw [step_move hs]
  exact (abandon_apply (decode_encode hi) (exec_apply_admitted hfound)).trans
    (congrArg Host.Outcome.next (wiped_taken_eq _ rest s))

/-- Settles O12: an ordinary address is stored to, and one byte of `BUF` is written. -/
theorem hostStoreWritesOneByte : Obligations.HostStoreWritesOneByte := by
  unfold Obligations.HostStoreWritesOneByte
  intro s addr v rest hs ho hwf
  exact ⟨_, (step_move hs).trans (onOrdinary_of_ordinary ho _), Memory.read_write hwf _ _⟩

/-! ## The invariant of a command boundary (R15, R16, R18) -/

/-- With a session open R16 says nothing. -/
theorem boundaryInv_of_ready {s : State} (hs : s.ST = .READY) (hclean : PendingClean s) (hW : ScratchClear s)
    (hwf : Memory.wf s.buf = true) : BoundaryInv s :=
  ⟨hclean, hW, fun hempty => absurd (hs.symm.trans hempty) nofun, hwf⟩

theorem boundaryInv_wipeBlock {s : State} (hwf : Memory.wf s.buf = true) : BoundaryInv (wipeBlock s) := by
  refine ⟨fun p _ => ?_, wipeBlock_W s, fun _ => ?_, (wipeBlock_buf s).symm ▸ hwf⟩
  · rw [wipeBlock_pendingBytes, Arr.get_fill]
  · exact ⟨wipeBlock_P s, wipeBlock_Q s, wipeBlock_index s, wipeBlock_pendingBytes s, wipeBlock_pendingCount s⟩

theorem boundaryInv_withResponse {s : State} (hs : BoundaryInv s) (r : Option Response) :
    BoundaryInv (withResponse r s) := hs

/-- Settles O54: the reset state is a wiped one with nothing listed in `BUF`. -/
theorem resetMeetsInvariant : Obligations.ResetMeetsInvariant := by
  unfold Obligations.ResetMeetsInvariant
  exact boundaryInv_wipeBlock (s := State.reset) wf_reset

theorem OpensAt.keeps_boundaryInv {i : Instr} {key iv : Key} {pos : Nat} (hi : OpensAt i key iv pos) {s t : State}
    (hwf : Memory.wf s.buf = true) (ht : exec i s = .next t) : BoundaryInv t := by
  obtain ⟨u, hu, ⟨hready, -⟩, hclean, hW, ⟨hbuf, -⟩, -⟩ := hi s
  cases hu.symm.trans ht
  exact boundaryInv_of_ready hready hclean hW (hbuf ▸ hwf)

theorem boundaryInv_nextWord {s : State} (hready : s.ST = .READY) (hs : BoundaryInv s) :
    BoundaryInv (nextWord s).2 := by
  obtain ⟨hclean, hW, -, hwf⟩ := hs
  refine boundaryInv_of_ready ((nextWord_ST s).trans hready) ?_ ((nextWord_W s).trans hW) ((nextWord_buf s).symm ▸ hwf)
  simpa only [PendingClean, nextWord_pendingBytes, nextWord_pendingCount] using hclean

theorem boundaryInv_applyStream {s : State} {addr len : Nat} (ha : Admitted s addr len) (hs : BoundaryInv s) :
    BoundaryInv (applyStream addr len s) := by
  obtain ⟨hready, hr, -⟩ := ha
  obtain ⟨hclean, hW, -, hwf⟩ := hs
  obtain ⟨hST, hW', -⟩ := applyStream_frame addr len s
  exact boundaryInv_of_ready (hST.trans hready) (pendingClean_applyStream hclean addr len) (hW'.trans hW)
    (applyStream_buf_spec hwf hr).1

theorem exec_keeps_boundaryInv {i : Instr} {s t : State} (hs : BoundaryInv s) (ht : exec i s = .next t) :
    BoundaryInv t := by
  have ⟨_, _, _, hwf⟩ := hs
  cases i with
  | init key iv => exact (init_opensAt key iv).keeps_boundaryInv hwf ht
  | initAt key iv offset => exact (initAt_opensAt key iv offset).keeps_boundaryInv hwf ht
  | nextw =>
    obtain ⟨-, he⟩ | ⟨hready, he⟩ := exec_nextw_cases s <;> cases he.symm.trans ht
    · exact boundaryInv_withResponse hs _
    · exact boundaryInv_withResponse (boundaryInv_nextWord hready hs) _
  | apply addr len =>
    obtain ⟨-, rfl⟩ | ⟨-, -, rfl⟩ | ⟨ha, rfl⟩ := exec_apply_next ht
    · exact boundaryInv_withResponse hs _
    · exact boundaryInv_withResponse hs _
    · exact boundaryInv_withResponse (boundaryInv_applyStream ha hs) _
  | release =>
    cases (exec_release s).symm.trans ht
    exact boundaryInv_withResponse (boundaryInv_wipeBlock hwf) _

theorem runMove_keeps_boundaryInv {m : HostMove} {s t : State} (hs : BoundaryInv s) (ht : runMove m s = .next t) :
    BoundaryInv t := by
  have ⟨hclean, hW, hempty, hwf⟩ := hs
  cases m with
  | packet b =>
    cases hb : decode b with
    | ok i => exact exec_keeps_boundaryInv hs ((runPacket_ok hb s).symm.trans ht)
    | error c =>
      cases (runPacket_error hb s).symm.trans ht
      exact boundaryInv_withResponse hs _
  | reset =>
    cases (resetEvent_eq s).symm.trans ht
    exact boundaryInv_withResponse (boundaryInv_wipeBlock hwf) _
  | resetDuring b w k0 =>
    obtain ⟨m, rfl, hm, -⟩ := abandon_next_buf hwf ht
    exact boundaryInv_withResponse (boundaryInv_wipeBlock hm) _
  | bufWrite addr v =>
    obtain ⟨-, rfl⟩ := hostWrite_next ht
    exact ⟨hclean, hW, hempty, Memory.wf_write v hwf addr.isLt⟩

/-- Settles O55, by the move of the step; delivering the response and taking the move touch no part of the invariant. -/
theorem stepKeepsInvariant : Obligations.StepKeepsInvariant := by
  unfold Obligations.StepKeepsInvariant
  intro s t hs ht
  obtain ⟨-, rfl⟩ | ⟨m, rest, -, hmove⟩ := step_cases ht
  · exact boundaryInv_withResponse hs none
  · exact runMove_keeps_boundaryInv (s := withInputs rest (withResponse none s)) hs hmove

end Sys2Proof.Machine
end

section
/-! SUPPORT. Arithmetic and the generator (40_arith.md, 42_nextword.md, rules R81 to R95, R116, R123): rotation bit by
bit, the words that are read and the word that is written, and the zero tables. -/

namespace Sys2Proof.Machine

/-! ## Rotation (R81) -/

theorem rotr_eq_rotateRight {n : Nat} (hn : n < 32) (x : Word) : rotr x n = x.rotateRight n := by
  rw [rotr, BitVec.rotateRight_def, Nat.mod_eq_of_lt hn]

theorem getLsbD_rotr {n k : Nat} (hn : n < 32) (hk : k < 32) (x : Word) :
    (rotr x n).getLsbD k = x.getLsbD ((k + n) % 32) := by
  rw [rotr_eq_rotateRight hn, BitVec.getLsbD_rotateRight, Nat.mod_eq_of_lt hn, Bool.cond_decide]
  split_ifs with hlow
  · rw [Nat.mod_eq_of_lt (by omega), Nat.add_comm]
  · have hwrap : (k + n) % 32 = k - (32 - n) := by omega
    rw [hwrap, decide_eq_true hk, Bool.true_and]

theorem toNat_rotr (x : Word) (n : Nat) :
    (rotr x n).toNat = ((x.toNat >>> n) ||| (x.toNat <<< (32 - n))) % 2 ^ 32 := by
  have hsmall : x.toNat >>> n < 2 ^ 32 := lt_of_le_of_lt (Nat.shiftRight_le _ _) x.isLt
  rw [rotr, BitVec.toNat_or, BitVec.toNat_ushiftRight, BitVec.toNat_shiftLeft, Nat.or_mod_two_pow,
    Nat.mod_eq_of_lt hsmall]

/-- Settles O18, bit by bit: all bits of `0` are equal, and all bits of `0xffffffff`. -/
theorem rotateMovesBits : Obligations.RotateMovesBits := by
  unfold Obligations.RotateMovesBits
  refine ⟨fun x n _ hn => ⟨toNat_rotr x n, fun k hk => getLsbD_rotr hn hk x, ?_, ?_⟩, by decide, by decide⟩
  · change rotr 0#32 n = 0#32
    refine BitVec.eq_of_getLsbD_eq fun k hk => ?_
    rw [getLsbD_rotr hn hk, BitVec.getLsbD_zero, BitVec.getLsbD_zero]
  · change rotr (BitVec.allOnes 32) n = BitVec.allOnes 32
    refine BitVec.eq_of_getLsbD_eq fun k hk => ?_
    rw [getLsbD_rotr hn hk, BitVec.getLsbD_allOnes, BitVec.getLsbD_allOnes, decide_eq_true hk,
      decide_eq_true (Nat.mod_lt _ (by decide))]

/-! ## The mixing functions (R87 to R92) -/

/-- Settles O20: the constants are those of `Config`, and the examples are computed. -/
theorem expansionFunctions : Obligations.ExpansionFunctions := by
  unfold Obligations.ExpansionFunctions
  exact ⟨fun _ => ⟨rfl, rfl⟩, by decide⟩

/-- Settles O21: a ten-bit index is the number it stands for. -/
theorem mixingFunctionsReadFeeder : Obligations.MixingFunctionsReadFeeder := by
  unfold Obligations.MixingFunctionsReadFeeder
  exact fun B x y => ⟨g_eq_get B x y, h_eq_get B x⟩

/-! ## The positions (R116) -/

theorem toNat_posJ (i : BitVec 11) : (posJ i).toNat = i.toNat % 1024 := BitVec.toNat_setWidth ..

/-- Subtraction of `d` modulo 2048 keeps the remainder by 1024. -/
theorem toNat_setWidth_sub (i d : BitVec 11) :
    (((i - d).setWidth 10).toNat : Int) = ((i.toNat : Int) - d.toNat) % 1024 := by
  rw [BitVec.toNat_setWidth, BitVec.toNat_sub]
  omega

theorem toNat_posJ1023 (i : BitVec 11) : ((posJ1023 i).toNat : Int) = ((i.toNat : Int) + 1) % 1024 := by
  have hone : (1#11).toNat = 1 := rfl
  rw [posJ1023, BitVec.toNat_setWidth, BitVec.toNat_add, hone]
  omega

/-- Settles O22: the five remainders, whose distances are no multiples of 1024. -/
theorem generatorPositions : Obligations.GeneratorPositions := by
  unfold Obligations.GeneratorPositions
  intro i
  have hj : ((posJ i).toNat : Int) = (i.toNat : Int) % 1024 := by rw [toNat_posJ]; rfl
  have hj3 : ((posJ3 i).toNat : Int) = ((i.toNat : Int) - 3) % 1024 := toNat_setWidth_sub i 3
  have hj10 : ((posJ10 i).toNat : Int) = ((i.toNat : Int) - 10) % 1024 := toNat_setWidth_sub i 10
  have hj12 : ((posJ12 i).toNat : Int) = ((i.toNat : Int) - 12) % 1024 := toNat_setWidth_sub i 12
  have hj1023 := toNat_posJ1023 i
  refine ⟨hj, hj3, hj10, hj12, hj1023, by omega, ?_⟩
  refine List.Pairwise.of_map (S := (· ≠ ·)) BitVec.toNat (fun _ _ hne heq => hne (congrArg BitVec.toNat heq)) ?_
  simp only [List.map_cons, List.map_nil, List.pairwise_cons, List.mem_cons, List.not_mem_nil, or_false,
    forall_eq_or_imp, forall_eq, List.Pairwise.nil, false_implies, implies_true, and_true]
  omega

/-! ## The word that a call writes (R117, R118, R123) -/

theorem nextWord_writes_P {s : State} (hi : s.index.toNat < 1024) :
    (nextWord s).2.Q = s.Q ∧ ∀ k, readTable (nextWord s).2.P k =
      if k = posJ s.index then newWord s.P s.Q s.index else readTable s.P k := by
  rw [nextWord_of_active_P (activeIsP_of_lt hi)]
  exact ⟨rfl, readTable_halfStep s.P s.Q s.index⟩

theorem nextWord_writes_Q {s : State} (hi : 1024 ≤ s.index.toNat) :
    (nextWord s).2.P = s.P ∧ ∀ k, readTable (nextWord s).2.Q k =
      if k = posJ s.index then newWord s.Q s.P s.index else readTable s.Q k := by
  rw [nextWord_of_active_Q (activeIsP_of_ge hi)]
  exact ⟨rfl, readTable_halfStep s.Q s.P s.index⟩

theorem skip_index_of_zero {s : State} (hs : s.index = 0) (n : Nat) : (skip n s).index = BitVec.ofNat 11 n := by
  rw [skip_index, hs]
  exact BitVec.zero_add _

theorem toNat_eq_iff_eq_posJ {n : Nat} (hn : n < 2048) (k : BitVec 10) :
    k.toNat = n % 1024 ↔ k = posJ (BitVec.ofNat 11 n) := by
  rw [← BitVec.toNat_inj, toNat_posJ, BitVec.toNat_ofNat, Nat.mod_eq_of_lt hn]

/-- Settles O25: the call at position `n` of a cycle finds `index = n`, which selects the half and the word. -/
theorem oneWordWrittenPerCall : Obligations.OneWordWrittenPerCall := by
  unfold Obligations.OneWordWrittenPerCall
  refine ⟨fun s => ⟨fun hi => ?_, fun hi => ?_⟩, fun s n hs hn => ?_⟩
  · obtain ⟨hQ, hread⟩ := nextWord_writes_P hi
    exact ⟨hQ, (hread _).trans (if_pos rfl), fun k hk => (hread k).trans (if_neg hk)⟩
  · obtain ⟨hP, hread⟩ := nextWord_writes_Q hi
    exact ⟨hP, (hread _).trans (if_pos rfl), fun k hk => (hread k).trans (if_neg hk)⟩
  · have hindex := skip_index_of_zero hs n
    have hnum : (skip n s).index.toNat = n := by rw [hindex, BitVec.toNat_ofNat, Nat.mod_eq_of_lt hn]
    have hposition := toNat_eq_iff_eq_posJ hn
    simp only [skip_succ_last]
    refine ⟨fun hhalf => ?_, fun hhalf => ?_⟩
    · obtain ⟨hQ, hread⟩ := nextWord_writes_P (hnum.symm ▸ hhalf)
      refine ⟨hQ, fun k => ?_⟩
      have hn' : n % 1024 = n := by omega
      rw [hread, hindex]
      simp only [← hposition, hn']
      rfl
    · obtain ⟨hP, hread⟩ := nextWord_writes_Q (hnum.symm ▸ hhalf)
      refine ⟨hP, fun k => ?_⟩
      have hn' : n % 1024 = n - 1024 := by omega
      rw [hread, hindex]
      simp only [← hposition, hn']
      rfl

/-! ## Zero tables -/

@[simp] theorem readTable_fill (v : Word) (k : BitVec 10) : readTable (Arr.fill 1024 v) k = v := Arr.get_fill ..

/-- Every sum over zero tables is zero. -/
theorem newWord_zero (i : BitVec 11) : newWord (Arr.fill 1024 0) (Arr.fill 1024 0) i = 0 := by
  simp only [newWord, g, readTable_fill]
  decide

theorem halfStep_zero (i : BitVec 11) :
    halfStep (Arr.fill 1024 0) (Arr.fill 1024 0) i = (0, Arr.fill 1024 0) := by
  refine Prod.ext ?_ (table_ext fun k => ?_)
  · rw [halfStep_output, newWord_zero]
    simp only [h, readTable_fill]
    decide
  · rw [readTable_halfStep, newWord_zero, readTable_fill, ite_self]

theorem nextWord_zero {s : State} (hP : s.P = Arr.fill 1024 0) (hQ : s.Q = Arr.fill 1024 0) :
    (nextWord s).1 = 0 ∧ (nextWord s).2.P = Arr.fill 1024 0 ∧ (nextWord s).2.Q = Arr.fill 1024 0 := by
  cases hactive : activeIsP s with
  | true =>
    rw [nextWord_of_active_P hactive, hP, hQ, halfStep_zero]
    exact ⟨rfl, rfl, rfl⟩
  | false =>
    rw [nextWord_of_active_Q hactive, hP, hQ, halfStep_zero]
    exact ⟨rfl, rfl, rfl⟩

theorem skip_zero_tables (n : Nat) {s : State} (hP : s.P = Arr.fill 1024 0) (hQ : s.Q = Arr.fill 1024 0) :
    (skip n s).P = Arr.fill 1024 0 ∧ (skip n s).Q = Arr.fill 1024 0 := by
  induction n with
  | zero => exact ⟨hP, hQ⟩
  | succ n ih =>
    rw [skip_succ_last]
    exact (nextWord_zero ih.1 ih.2).2

/-- Settles O26: zero tables stay zero, and over them each word is zero. -/
theorem zeroTablesGiveZeroForEver : Obligations.ZeroTablesGiveZeroForEver := by
  unfold Obligations.ZeroTablesGiveZeroForEver
  intro s n hP hQ
  obtain ⟨hP', hQ'⟩ := skip_zero_tables n hP hQ
  exact ⟨(nextWord_zero hP' hQ').1, hP', hQ'⟩

end Sys2Proof.Machine
end

section
/-! SUPPORT. Who may change what (20_memory.md section 1, 10_state.md section 4, 60_exceptions.md section 2,
70_reset_and_hazards.md section 5): `BUF`, the lifecycle flag and the response over every move, and what a command's
result does not depend on. -/

namespace Sys2Proof.Machine

/-! ## BUF (R30, R218) -/

/-- Outside the block a command changes nothing, but for an admitted `APPLY`. -/
theorem exec_outside_cases {i : Instr} {s t : State} (ht : exec i s = .next t) :
    SameOutside t s ∨ ∃ addr len, i = .apply addr len ∧ Admitted s addr len ∧
      t = withResponse (some ⟨.OK, []⟩) (applyStream addr len s) := by
  cases i with
  | init key iv =>
    obtain ⟨u, hu, -, -, -, houtside, -⟩ := init_opensAt key iv s
    cases hu.symm.trans ht
    exact Or.inl houtside
  | initAt key iv offset =>
    obtain ⟨u, hu, -, -, -, houtside, -⟩ := initAt_opensAt key iv offset s
    cases hu.symm.trans ht
    exact Or.inl houtside
  | nextw =>
    refine Or.inl ?_
    obtain ⟨-, he⟩ | ⟨-, he⟩ := exec_nextw_cases s <;> cases he.symm.trans ht
    · exact ⟨rfl, rfl, rfl⟩
    · exact ⟨nextWord_buf s, nextWord_platform s, nextWord_inputs s⟩
  | apply addr len =>
    obtain ⟨-, rfl⟩ | ⟨-, -, rfl⟩ | ⟨ha, rfl⟩ := exec_apply_next ht
    · exact Or.inl ⟨rfl, rfl, rfl⟩
    · exact Or.inl ⟨rfl, rfl, rfl⟩
    · exact Or.inr ⟨addr, len, rfl, ha, rfl⟩
  | release =>
    cases (exec_release s).symm.trans ht
    exact Or.inl ⟨wipeBlock_buf s, wipeBlock_platform s, wipeBlock_inputs s⟩

/-- Move `m` of the host may change byte `a` of `BUF`: it runs an `APPLY` over the byte, to its end or not, or stores to
it. -/
def MayChange (m : HostMove) (a : Nat) : Prop :=
  (∃ b addr len, (m = .packet b ∨ ∃ w k0, m = .resetDuring b w k0) ∧
    decode b = .ok (.apply addr len) ∧ addr ≤ a ∧ a < addr + len) ∨
  ∃ addr v, m = .bufWrite addr v ∧ a = addr.toNat

theorem runPacket_outside {b : Packet} {s t : State} (hwf : Memory.wf s.buf = true) (ht : runPacket b s = .next t) :
    t.platform = s.platform ∧ t.inputs = s.inputs ∧
      ∀ a, Memory.read t.buf a ≠ Memory.read s.buf a → MayChange (.packet b) a := by
  cases hb : decode b with
  | error c =>
    cases (runPacket_error hb s).symm.trans ht
    exact ⟨rfl, rfl, fun _ hne => absurd rfl hne⟩
  | ok i =>
    obtain ⟨hbuf, hplatform, hinputs⟩ | ⟨addr, len, rfl, ⟨-, hr, -⟩, rfl⟩ :=
      exec_outside_cases ((runPacket_ok hb s).symm.trans ht)
    · exact ⟨hplatform, hinputs, fun a hne => absurd (congrArg (Memory.read · a) hbuf) hne⟩
    · obtain ⟨-, -, hplatform, hinputs, -⟩ := applyStream_frame addr len s
      refine ⟨hplatform, hinputs, fun a hne => Or.inl ⟨b, addr, len, Or.inl rfl, hb, ?_⟩⟩
      by_contra hout
      exact hne (read_applyStream_outside hwf hr (by omega))

theorem abandon_outside {b : Packet} {k0 : Nat} {s t : State} (hwf : Memory.wf s.buf = true)
    (ht : abandon b k0 s = .next t) (w : Option Packet) :
    t.platform = s.platform ∧ t.inputs = s.inputs ∧
      ∀ a, Memory.read t.buf a ≠ Memory.read s.buf a → MayChange (.resetDuring b w k0) a := by
  obtain ⟨m, rfl, -, rfl | ⟨addr, len, hb, -, hread⟩⟩ := abandon_next_buf hwf ht
  · exact ⟨rfl, rfl, fun _ hne => absurd rfl hne⟩
  · refine ⟨rfl, rfl, fun a hne => Or.inl ⟨b, addr, len, Or.inr ⟨w, k0, rfl⟩, hb, ?_⟩⟩
    by_contra hout
    exact hne ((hread a).trans (if_neg (by omega)))

theorem runMove_outside {m : HostMove} {s t : State} (hwf : Memory.wf s.buf = true) (ht : runMove m s = .next t) :
    t.platform = s.platform ∧ t.inputs = s.inputs ∧
      ∀ a, Memory.read t.buf a ≠ Memory.read s.buf a → MayChange m a := by
  cases m with
  | packet b => exact runPacket_outside hwf ht
  | reset =>
    cases (resetEvent_eq s).symm.trans ht
    exact ⟨rfl, rfl, fun _ hne => absurd rfl hne⟩
  | resetDuring b w k0 => exact abandon_outside hwf ht w
  | bufWrite addr v =>
    obtain ⟨-, rfl⟩ := hostWrite_next ht
    refine ⟨rfl, rfl, fun a hne => Or.inr ⟨addr, v, rfl, ?_⟩⟩
    by_contra hother
    exact hne ((Memory.read_write hwf _ _ a).trans (if_neg hother))

/-- Settles O57, by the move of the step. -/
theorem onlyApplyAndHostStoreToBuf : Obligations.OnlyApplyAndHostStoreToBuf := by
  unfold Obligations.OnlyApplyAndHostStoreToBuf
  intro s t hwf ht
  obtain ⟨hs, rfl⟩ | ⟨m, rest, hs, hmove⟩ := step_cases ht
  · refine ⟨rfl, ?_, fun _ hne => absurd rfl hne⟩
    rw [withResponse_inputs, hs, List.tail_nil]
  · obtain ⟨hplatform, hinputs, hchange⟩ := runMove_outside (s := withInputs rest (withResponse none s)) hwf hmove
    rw [hs]
    simp only [List.head?_cons, Option.some.injEq]
    exact ⟨hplatform, hinputs, hchange⟩

/-! ## The lifecycle flag (R17, R26) -/

theorem exec_ST_cases {i : Instr} {s t : State} (ht : exec i s = .next t) :
    t.ST = s.ST ∨ (i = .release ∧ t.ST = .EMPTY) ∨
      (((∃ key iv, i = .init key iv) ∨ ∃ key iv offset, i = .initAt key iv offset) ∧ t.ST = .READY) := by
  cases i with
  | init key iv =>
    cases (exec_init key iv s).symm.trans ht
    exact Or.inr (Or.inr ⟨Or.inl ⟨key, iv, rfl⟩, setReady_ST (tableInit key iv s)⟩)
  | initAt key iv offset =>
    cases (exec_initAt key iv offset s).symm.trans ht
    exact Or.inr (Or.inr ⟨Or.inr ⟨key, iv, offset, rfl⟩, setReady_ST (seek offset (tableInit key iv s))⟩)
  | nextw =>
    obtain ⟨-, he⟩ | ⟨-, he⟩ := exec_nextw_cases s <;> cases he.symm.trans ht
    · exact Or.inl rfl
    · exact Or.inl (nextWord_ST s)
  | apply addr len =>
    obtain ⟨-, rfl⟩ | ⟨-, -, rfl⟩ | ⟨-, rfl⟩ := exec_apply_next ht
    · exact Or.inl rfl
    · exact Or.inl rfl
    · exact Or.inl (applyStream_frame addr len s).1
  | release =>
    cases (exec_release s).symm.trans ht
    exact Or.inr (Or.inl ⟨rfl, wipeBlock_ST s⟩)

/-- The packets of `RELEASE`, and of `INIT` and `INITAT` by length and opcode (R52). -/
theorem runPacket_ST_cases {b : Packet} {s t : State} (ht : runPacket b s = .next t) :
    t.ST = s.ST ∨ (b = [0x05#8] ∧ t.ST = .EMPTY) ∨
      (((b.length = 65 ∧ opcodeOf b = 1) ∨ (b.length = 73 ∧ opcodeOf b = 2)) ∧ t.ST = .READY) := by
  cases hb : decode b with
  | error c =>
    cases (runPacket_error hb s).symm.trans ht
    exact Or.inl rfl
  | ok i =>
    obtain ⟨-, rfl⟩ := decode_eq_ok_iff.mp hb
    obtain hsame | ⟨rfl, hempty⟩ | ⟨⟨key, iv, rfl⟩ | ⟨key, iv, offset, rfl⟩, hready⟩ :=
      exec_ST_cases ((runPacket_ok hb s).symm.trans ht)
    · exact Or.inl hsame
    · exact Or.inr (Or.inl ⟨rfl, hempty⟩)
    · exact Or.inr (Or.inr ⟨Or.inl ⟨by simp [encode], rfl⟩, hready⟩)
    · exact Or.inr (Or.inr ⟨Or.inr ⟨by simp [encode], rfl⟩, hready⟩)

theorem runMove_ST_cases {m : HostMove} {s t : State} (ht : runMove m s = .next t) :
    t.ST = s.ST ∨
      ((m = .packet [0x05#8] ∨ m = .reset ∨ ∃ b w k0, m = .resetDuring b w k0) ∧ t.ST = .EMPTY) ∨
      ((∃ b, m = .packet b ∧ ((b.length = 65 ∧ opcodeOf b = 1) ∨ (b.length = 73 ∧ opcodeOf b = 2))) ∧
        t.ST = .READY) := by
  cases m with
  | packet b =>
    obtain hsame | ⟨rfl, hempty⟩ | ⟨hb, hready⟩ := runPacket_ST_cases ht
    · exact Or.inl hsame
    · exact Or.inr (Or.inl ⟨Or.inl rfl, hempty⟩)
    · exact Or.inr (Or.inr ⟨⟨b, rfl, hb⟩, hready⟩)
  | reset =>
    cases (resetEvent_eq s).symm.trans ht
    exact Or.inr (Or.inl ⟨Or.inr (Or.inl rfl), wipeBlock_ST s⟩)
  | resetDuring b w k0 =>
    refine Or.inr (Or.inl ⟨Or.inr (Or.inr ⟨b, w, k0, rfl⟩), ?_⟩)
    obtain ⟨rfl, -⟩ | ⟨addr, len, u, -, -, rfl⟩ := abandon_next ht
    · exact wipeBlock_ST s
    · exact wipeBlock_ST (withBuf (copyPrefix u.buf s.buf addr (min k0 len)) s)
  | bufWrite addr v =>
    obtain ⟨-, rfl⟩ := hostWrite_next ht
    exact Or.inl rfl

theorem step_ST_cases {s t : State} (ht : step s = .next t) :
    t.ST = s.ST ∨
      ((s.inputs.head? = some (.packet [0x05#8]) ∨ s.inputs.head? = some .reset ∨
        ∃ b w k0, s.inputs.head? = some (.resetDuring b w k0)) ∧ t.ST = .EMPTY) ∨
      ((∃ b, s.inputs.head? = some (.packet b) ∧
        ((b.length = 65 ∧ opcodeOf b = 1) ∨ (b.length = 73 ∧ opcodeOf b = 2))) ∧ t.ST = .READY) := by
  obtain ⟨-, rfl⟩ | ⟨m, rest, hs, hmove⟩ := step_cases ht
  · exact Or.inl (withResponse_ST none s)
  · have hcases := runMove_ST_cases hmove
    rw [withInputs_ST, withResponse_ST] at hcases
    simpa only [hs, List.head?_cons, Option.some.injEq] using hcases

/-- Settles O56: the flag changes to `EMPTY` in one group of moves, to `READY` in the other. -/
theorem lifecycleTransitions : Obligations.LifecycleTransitions := by
  unfold Obligations.LifecycleTransitions
  intro s t ht
  obtain hkept | ⟨hmove, hempty⟩ | ⟨hmove, hready⟩ := step_ST_cases ht
  · refine ⟨fun hs hafter => ?_, fun hs hafter => ?_⟩ <;> cases hs.symm.trans (hkept.symm.trans hafter)
  · exact ⟨fun _ _ => hmove, fun _ hready => nomatch hempty.symm.trans hready⟩
  · exact ⟨fun _ hempty => (nomatch hready.symm.trans hempty), fun _ _ => hmove⟩

/-! ## The response (R66, R192) -/

theorem firstCause_ne_invariant (b : Packet) (s : State) : firstCause b s ≠ .ERR_INVARIANT := by
  unfold firstCause
  split_ifs <;> decide

/-- Only a packet is responded to, and with its first cause. -/
theorem runMove_response {m : HostMove} {s t : State} (hs : s.response = none) (ht : runMove m s = .next t) :
    t.response = none ∨ ∃ b d, t.response = some ⟨firstCause b s, d⟩ := by
  cases m with
  | packet b => exact Or.inr ⟨b, (runPacket_answersCause ht).response⟩
  | reset =>
    cases (resetEvent_eq s).symm.trans ht
    exact Or.inl rfl
  | resetDuring b w k0 =>
    obtain ⟨rfl, -⟩ | ⟨addr, len, u, -, -, rfl⟩ := abandon_next ht <;> exact Or.inl rfl
  | bufWrite addr v =>
    obtain ⟨-, rfl⟩ := hostWrite_next ht
    exact Or.inl hs

/-- Settles O16: `ERR_INVARIANT` is no first cause. -/
theorem assertionNeverReported : Obligations.AssertionNeverReported := by
  unfold Obligations.AssertionNeverReported
  intro s t r ht hr
  obtain ⟨-, rfl⟩ | ⟨m, rest, -, hmove⟩ := step_cases ht
  · cases hr
  · obtain hnone | ⟨b, d, hsome⟩ := runMove_response rfl hmove
    · cases hnone.symm.trans hr
    · cases hsome.symm.trans hr
      exact firstCause_ne_invariant b _

/-! ## What a result does not depend on (U1, R232) -/

theorem OpensAt.same_result {i : Instr} {key iv : Key} {pos : Nat} (hi : OpensAt i key iv pos) {s t : State}
    (ht : exec i s = .next t) (s' : State) :
    ∃ t', exec i s' = .next t' ∧ SameBlock t t' ∧ t.response = t'.response := by
  obtain ⟨u, hu, hpos, hclean, hW, -, hresponse⟩ := hi s
  obtain ⟨t', ht', hpos', hclean', hW', -, hresponse'⟩ := hi s'
  cases hu.symm.trans ht
  exact ⟨t', ht', hpos.sameBlock hpos' hclean hclean' hW hW', hresponse.trans hresponse'.symm⟩

theorem sameBlock_nextWord {s t : State} (hst : SameBlock s t) :
    (nextWord s).1 = (nextWord t).1 ∧ SameBlock (nextWord s).2 (nextWord t).2 := by
  obtain ⟨hword, hP, hQ, hindex⟩ := (sameGen_of_sameBlock hst).nextWord
  obtain ⟨-, -, hW, -, hbytes, hcount, hST⟩ := hst
  refine ⟨hword, hP, hQ, ?_, hindex, ?_, ?_, ?_⟩ <;> simpa

/-- The same response on the same block. Its fields are read by their lemmas: `rfl` would compare `s` with `t`. -/
theorem withResponse_congr {s t : State} (hst : SameBlock s t) (r : Option Response) :
    SameBlock (withResponse r s) (withResponse r t) ∧ (withResponse r s).response = (withResponse r t).response :=
  ⟨sameBlock_trans (sameBlock_withResponse r s) (sameBlock_trans hst (sameBlock_symm (sameBlock_withResponse r t))),
    (withResponse_response r s).trans (withResponse_response r t).symm⟩

theorem withResponse_code_congr (c : Code) (d d' : List Byte) (s t : State) :
    (withResponse (some ⟨c, d⟩) s).response.map Response.code =
      (withResponse (some ⟨c, d'⟩) t).response.map Response.code := by
  rw [withResponse_response, withResponse_response, Option.map_some, Option.map_some]

/-- Settles O49, command by command: a refusal leaves the block, `NextWord` and the phases of `APPLY` read the block,
and the other commands read nothing. -/
theorem bufDataDoesNotReachBlock : Obligations.BufDataDoesNotReachBlock := by
  unfold Obligations.BufDataDoesNotReachBlock
  intro i s t m ht
  change ∃ u, exec i (withBuf m s) = .next u ∧ SameBlock t u ∧ t.response = u.response
  have hblock : SameBlock s (withBuf m s) := sameBlock_symm (sameBlock_withBuf m s)
  cases i with
  | init key iv => exact (init_opensAt key iv).same_result ht _
  | initAt key iv offset => exact (initAt_opensAt key iv offset).same_result ht _
  | nextw =>
    obtain ⟨hs, he⟩ | ⟨hs, he⟩ := exec_nextw_cases s <;> cases he.symm.trans ht
    · exact ⟨_, exec_nextw_empty (s := withBuf m s) hs, withResponse_congr hblock _⟩
    · obtain ⟨hword, hnext⟩ := sameBlock_nextWord hblock
      exact ⟨_, exec_nextw_ready (s := withBuf m s) hs, hword ▸ withResponse_congr hnext _⟩
  | apply addr len =>
    obtain ⟨hs, rfl⟩ | ⟨hs, hr, rfl⟩ | ⟨ha, rfl⟩ := exec_apply_next ht
    · exact ⟨_, exec_apply_empty (s := withBuf m s) hs addr len, withResponse_congr hblock _⟩
    · exact ⟨_, exec_apply_range (s := withBuf m s) hs hr, withResponse_congr hblock _⟩
    · exact ⟨_, exec_apply_admitted (s := withBuf m s) ha,
        withResponse_congr (sameBlock_applyStream hblock addr addr len) _⟩
  | release =>
    cases (exec_release s).symm.trans ht
    have hwiped := sameBlock_trans (sameBlock_wipeBlock s) (sameBlock_symm (sameBlock_wipeBlock (withBuf m s)))
    exact ⟨_, exec_release _, withResponse_congr hwiped _⟩

/-- Settles O50: the counts after a call are functions of those before it and of the length; admission reads `ST` and
the platform. -/
theorem countsIndependentOfSecrets : Obligations.CountsIndependentOfSecrets := by
  unfold Obligations.CountsIndependentOfSecrets
  rintro i s s' t (rfl | ⟨addr, len, rfl⟩) hindex hcount hST hplatform ht
  · obtain ⟨hs, he⟩ | ⟨hs, he⟩ := exec_nextw_cases s <;> cases he.symm.trans ht
    · exact ⟨_, exec_nextw_empty (hST ▸ hs), hindex, hcount, hST, withResponse_code_congr ..⟩
    · refine ⟨_, exec_nextw_ready (hST ▸ hs), ?_, ?_, ?_, withResponse_code_congr ..⟩ <;> simp [hindex, hcount, hST]
  · obtain ⟨hs, rfl⟩ | ⟨hs, hr, rfl⟩ | ⟨ha, rfl⟩ := exec_apply_next ht
    · exact ⟨_, exec_apply_empty (hST ▸ hs) addr len, hindex, hcount, hST, withResponse_code_congr ..⟩
    · exact ⟨_, exec_apply_range (hST ▸ hs) hr, hindex, hcount, hST, withResponse_code_congr ..⟩
    · obtain ⟨-, -, hafter⟩ := applyStream_sameGen addr len s
      obtain ⟨-, -, hafter'⟩ := applyStream_sameGen addr len s'
      obtain ⟨hST1, -⟩ := applyStream_frame addr len s
      obtain ⟨hST2, -⟩ := applyStream_frame addr len s'
      refine ⟨_, exec_apply_admitted (admitted_congr hST hplatform ha), ?_, ?_, ?_, withResponse_code_congr ..⟩
      · rw [withResponse_index, withResponse_index, hafter, hafter', skip_index, skip_index, hindex, hcount]
      · rw [withResponse_pendingCount, withResponse_pendingCount, applyStream_pendingCount, applyStream_pendingCount,
          hcount]
      · rw [withResponse_ST, withResponse_ST, hST1, hST2, hST]

end Sys2Proof.Machine
end
